-- ==== Sys2Proof/Word.lean ====
section
/-! DEFINITION. The three word types of the hardware (R9): a byte, a 16-bit word, a 9-bit command word. All are unsigned
bit strings. -/

namespace Sys2Proof

/-- A byte: the unit of the payload, of the output port and of a frame (R9, R29). -/
abbrev Byte := BitVec 8

/-- The spec's `word16`: the CRC register, a checksum, a table entry (R9, R13). -/
abbrev Word16 := BitVec 16

/-- A command word of format `CMD9` (R43). -/
abbrev CmdWord := BitVec 9

end Sys2Proof
end

