-- ==== Sys2Proof/Config.lean ====
section
/-! DEFINITION. The constants fixed at build time (R5 to R8). None is held in a register, none can be changed by an
operation, and none is left open: `MAX_PAYLOAD` is unbounded, so it has no constant here, and `USE_TABLE` is an argument of
`Machine.crcByteBuilt`, since its value is unobservable (U1). -/

namespace Sys2Proof.Config

/-- `CRC_POLY`: the polynomial in the spelling a left-shifting register uses (R6). -/
def crcPoly : Word16 := 0x1021#16

/-- `CRC_POLY_REV`: the same polynomial in the spelling a right-shifting register uses (R6, C2). -/
def crcPolyRev : Word16 := 0x8408#16

/-- `CRC_INIT` (R6). -/
def crcInit : Word16 := 0xFFFF#16

/-- `CRC_XOROUT` (R6). -/
def crcXorOut : Word16 := 0xFFFF#16

/-- `ESC`, the escape marker byte (R7). -/
def esc : Byte := 0x7D#8

/-- `FLAG`, the frame delimiter byte (R7). -/
def flag : Byte := 0x7E#8

/-- `ESC_XOR`, the mask applied to an escaped byte (R7). -/
def escXor : Byte := 0x20#8

/-- `PEND_MAX`, the capacity of the pending-output queue (R8, R14). -/
def pendMax : Nat := 5

end Sys2Proof.Config
end

