-- ==== Sys2Proof/Machine/Flags.lean ====
section
/-! DEFINITION. The tests the hardware makes on data. There are no flags, condition codes or predicates (R19): each test
is consumed where it is computed and none is stored. The third test of R19, the `end` bit of a command word, is `endBit` of
Decode.lean. -/

namespace Sys2Proof.Machine

/-- The test `c[0] = 1` of the one-bit checksum step: the bit about to be shifted out (R19, R57). -/
def bitOut (c : Word16) : Bool := c.getLsbD 0

/-- Membership in `RESERVED` = {0x7D, 0x7E}: equality of all eight bits (R7, R19, R70). -/
def isReserved (b : Byte) : Bool := b == Config.esc || b == Config.flag

end Sys2Proof.Machine
end

