-- ==== Sys2Proof/Machine/Operands.lean ====
section
/-! DEFINITION. The forms in which an operation's data reaches the stages: a byte widened to the register's width, the two
bytes of a word, bit order reversed (R9, R12, R31). The explicit operand of `DATA` is the word's `byte` field, used as it
stands (`byteField` of Decode.lean); the register `crc` is implicit in both operations (R43, R93, R94). -/

namespace Sys2Proof.Machine

/-- `zext_16(b)`: zeros in the new high bits (R9). -/
def zext16 (b : Byte) : Word16 := b.setWidth 16

/-- `v[7:0]` (R9). -/
def lowByte (v : Word16) : Byte := v.extractLsb' 0 8

/-- `v[15:8]` (R9). -/
def highByte (v : Word16) : Byte := v.extractLsb' 8 8

/-- The word whose low byte is `lo` and whose high byte is `hi`: `lo + 256 * hi` (R88). -/
def wordOfBytes (lo hi : Byte) : Word16 := hi ++ lo

/-- `reflect_8`: the order of a byte's bits reversed (R12). -/
def reflect8 (b : Byte) : Byte := b.reverse

/-- `reflect_16`: the order of a word's bits reversed (R12). -/
def reflect16 (v : Word16) : Word16 := v.reverse

/-- The checksum an `END` reads from the implicit register: every bit of `crc` inverted (R60, R94). -/
def checksumOfCrc (c : Word16) : Word16 := c ^^^ Config.crcXorOut

end Sys2Proof.Machine
end

