-- ==== Sys2Proof/Machine/Crc.lean ====
section
/-! DEFINITION. The Checksum Engine (40_crc.md): the normative right-shifting form (R57 to R60), then the forms the spec
calls equivalent to it: bit by bit (R32), left-shifting with explicit reflection (R62), table-driven (R30, R63) and parallel
(R64). The machine's meanings use the normative form alone (D22). -/

namespace Sys2Proof.Machine

/-- `crc_bit` (R57). -/
def crcBit (c : Word16) : Word16 :=
  if bitOut c then (c >>> 1) ^^^ Config.crcPolyRev else c >>> 1

/-- `crc_bit` applied `n` times (R30, R58). -/
def crcBitTimes : Nat → Word16 → Word16
  | 0, c => c
  | n + 1, c => crcBitTimes n (crcBit c)

/-- `crc_byte` (R58): the byte enters the low eight bits, then eight one-bit steps. -/
def crcByte (c : Word16) (b : Byte) : Word16 := crcBitTimes 8 (c ^^^ zext16 b)

/-- `crc_run` (R59): `crc_byte` over a byte sequence, first byte first. -/
def crcRun : Word16 → List Byte → Word16
  | c, [] => c
  | c, b :: s => crcRun (crcByte c b) s

/-- `compute_checksum`, also `crc16_x25` (R60). -/
def computeChecksum (p : List Byte) : Word16 := crcRun Config.crcInit p ^^^ Config.crcXorOut

/-- One data bit meets the register: the form of the one-bit step in which the bit is not exclusive-ored in beforehand
(R32, R58). -/
def crcFeedBit (c : Word16) (d : Bool) : Word16 :=
  if bitOut c ^^ d then (c >>> 1) ^^^ Config.crcPolyRev else c >>> 1

/-- The bits of a byte in the order they meet the register, bit 0 first (R32). -/
def bitsLsbFirst (b : Byte) : List Bool :=
  [b.getLsbD 0, b.getLsbD 1, b.getLsbD 2, b.getLsbD 3, b.getLsbD 4, b.getLsbD 5, b.getLsbD 6, b.getLsbD 7]

/-- `msb_bit` of the left-shifting form (R62). -/
def msbBit (r : Word16) : Word16 :=
  if r.getLsbD 15 then (r <<< 1) ^^^ Config.crcPoly else r <<< 1

/-- `msb_bit` applied `n` times (R62). -/
def msbBitTimes : Nat → Word16 → Word16
  | 0, r => r
  | n + 1, r => msbBitTimes n (msbBit r)

/-- `msb_byte`: the byte is reflected and enters the high eight bits (R62). -/
def msbByte (r : Word16) (b : Byte) : Word16 := msbBitTimes 8 (r ^^^ (zext16 (reflect8 b) <<< 8))

/-- `msb_run` (R62). -/
def msbRun : Word16 → List Byte → Word16
  | r, [] => r
  | r, b :: s => msbRun (msbByte r b) s

/-- `compute_checksum'`: the register is reflected, then inverted (R62). -/
def computeChecksumMsb (p : List Byte) : Word16 :=
  reflect16 (msbRun Config.crcInit p) ^^^ Config.crcXorOut

/-- Entries 0x00 to 0x1F of the printed table (R63). -/
def tableRom0 : List Word16 :=
  [0x0000#16, 0x1189#16, 0x2312#16, 0x329B#16, 0x4624#16, 0x57AD#16, 0x6536#16, 0x74BF#16,
   0x8C48#16, 0x9DC1#16, 0xAF5A#16, 0xBED3#16, 0xCA6C#16, 0xDBE5#16, 0xE97E#16, 0xF8F7#16,
   0x1081#16, 0x0108#16, 0x3393#16, 0x221A#16, 0x56A5#16, 0x472C#16, 0x75B7#16, 0x643E#16,
   0x9CC9#16, 0x8D40#16, 0xBFDB#16, 0xAE52#16, 0xDAED#16, 0xCB64#16, 0xF9FF#16, 0xE876#16]

/-- Entries 0x20 to 0x3F of the printed table (R63). -/
def tableRom1 : List Word16 :=
  [0x2102#16, 0x308B#16, 0x0210#16, 0x1399#16, 0x6726#16, 0x76AF#16, 0x4434#16, 0x55BD#16,
   0xAD4A#16, 0xBCC3#16, 0x8E58#16, 0x9FD1#16, 0xEB6E#16, 0xFAE7#16, 0xC87C#16, 0xD9F5#16,
   0x3183#16, 0x200A#16, 0x1291#16, 0x0318#16, 0x77A7#16, 0x662E#16, 0x54B5#16, 0x453C#16,
   0xBDCB#16, 0xAC42#16, 0x9ED9#16, 0x8F50#16, 0xFBEF#16, 0xEA66#16, 0xD8FD#16, 0xC974#16]

/-- Entries 0x40 to 0x5F of the printed table (R63). -/
def tableRom2 : List Word16 :=
  [0x4204#16, 0x538D#16, 0x6116#16, 0x709F#16, 0x0420#16, 0x15A9#16, 0x2732#16, 0x36BB#16,
   0xCE4C#16, 0xDFC5#16, 0xED5E#16, 0xFCD7#16, 0x8868#16, 0x99E1#16, 0xAB7A#16, 0xBAF3#16,
   0x5285#16, 0x430C#16, 0x7197#16, 0x601E#16, 0x14A1#16, 0x0528#16, 0x37B3#16, 0x263A#16,
   0xDECD#16, 0xCF44#16, 0xFDDF#16, 0xEC56#16, 0x98E9#16, 0x8960#16, 0xBBFB#16, 0xAA72#16]

/-- Entries 0x60 to 0x7F of the printed table (R63). -/
def tableRom3 : List Word16 :=
  [0x6306#16, 0x728F#16, 0x4014#16, 0x519D#16, 0x2522#16, 0x34AB#16, 0x0630#16, 0x17B9#16,
   0xEF4E#16, 0xFEC7#16, 0xCC5C#16, 0xDDD5#16, 0xA96A#16, 0xB8E3#16, 0x8A78#16, 0x9BF1#16,
   0x7387#16, 0x620E#16, 0x5095#16, 0x411C#16, 0x35A3#16, 0x242A#16, 0x16B1#16, 0x0738#16,
   0xFFCF#16, 0xEE46#16, 0xDCDD#16, 0xCD54#16, 0xB9EB#16, 0xA862#16, 0x9AF9#16, 0x8B70#16]

/-- Entries 0x80 to 0x9F of the printed table (R63). -/
def tableRom4 : List Word16 :=
  [0x8408#16, 0x9581#16, 0xA71A#16, 0xB693#16, 0xC22C#16, 0xD3A5#16, 0xE13E#16, 0xF0B7#16,
   0x0840#16, 0x19C9#16, 0x2B52#16, 0x3ADB#16, 0x4E64#16, 0x5FED#16, 0x6D76#16, 0x7CFF#16,
   0x9489#16, 0x8500#16, 0xB79B#16, 0xA612#16, 0xD2AD#16, 0xC324#16, 0xF1BF#16, 0xE036#16,
   0x18C1#16, 0x0948#16, 0x3BD3#16, 0x2A5A#16, 0x5EE5#16, 0x4F6C#16, 0x7DF7#16, 0x6C7E#16]

/-- Entries 0xA0 to 0xBF of the printed table (R63). -/
def tableRom5 : List Word16 :=
  [0xA50A#16, 0xB483#16, 0x8618#16, 0x9791#16, 0xE32E#16, 0xF2A7#16, 0xC03C#16, 0xD1B5#16,
   0x2942#16, 0x38CB#16, 0x0A50#16, 0x1BD9#16, 0x6F66#16, 0x7EEF#16, 0x4C74#16, 0x5DFD#16,
   0xB58B#16, 0xA402#16, 0x9699#16, 0x8710#16, 0xF3AF#16, 0xE226#16, 0xD0BD#16, 0xC134#16,
   0x39C3#16, 0x284A#16, 0x1AD1#16, 0x0B58#16, 0x7FE7#16, 0x6E6E#16, 0x5CF5#16, 0x4D7C#16]

/-- Entries 0xC0 to 0xDF of the printed table (R63). -/
def tableRom6 : List Word16 :=
  [0xC60C#16, 0xD785#16, 0xE51E#16, 0xF497#16, 0x8028#16, 0x91A1#16, 0xA33A#16, 0xB2B3#16,
   0x4A44#16, 0x5BCD#16, 0x6956#16, 0x78DF#16, 0x0C60#16, 0x1DE9#16, 0x2F72#16, 0x3EFB#16,
   0xD68D#16, 0xC704#16, 0xF59F#16, 0xE416#16, 0x90A9#16, 0x8120#16, 0xB3BB#16, 0xA232#16,
   0x5AC5#16, 0x4B4C#16, 0x79D7#16, 0x685E#16, 0x1CE1#16, 0x0D68#16, 0x3FF3#16, 0x2E7A#16]

/-- Entries 0xE0 to 0xFF of the printed table (R63). -/
def tableRom7 : List Word16 :=
  [0xE70E#16, 0xF687#16, 0xC41C#16, 0xD595#16, 0xA12A#16, 0xB0A3#16, 0x8238#16, 0x93B1#16,
   0x6B46#16, 0x7ACF#16, 0x4854#16, 0x59DD#16, 0x2D62#16, 0x3CEB#16, 0x0E70#16, 0x1FF9#16,
   0xF78F#16, 0xE606#16, 0xD49D#16, 0xC514#16, 0xB1AB#16, 0xA022#16, 0x92B9#16, 0x8330#16,
   0x7BC7#16, 0x6A4E#16, 0x58D5#16, 0x495C#16, 0x3DE3#16, 0x2C6A#16, 0x1EF1#16, 0x0F78#16]

/-- The contents of the table ROM, `T[0]` first, as R63 prints them. Constant, never written (R17, R124). -/
def tableRom : List Word16 :=
  tableRom0 ++ tableRom1 ++ tableRom2 ++ tableRom3 ++ tableRom4 ++ tableRom5 ++ tableRom6 ++ tableRom7

/-- `T[i]`, a read of the table space: no side effect, the same value every time (R28, R30). -/
def tableRead (i : Byte) : Word16 := tableRom.getD i.toNat 0#16

/-- The table-driven byte step (R63). -/
def crcByteTable (c : Word16) (b : Byte) : Word16 := (c >>> 8) ^^^ tableRead (lowByte (c ^^^ zext16 b))

/-- The byte step of an engine built with or without the table: the parameter `USE_TABLE` (R8, U1). -/
def crcByteBuilt (useTable : Bool) (c : Word16) (b : Byte) : Word16 :=
  if useTable then crcByteTable c b else crcByte c b

/-- Bit `i` of the register exclusive-or bit `i` of the byte: `x_i` of R64. -/
def feedBit (c : Word16) (b : Byte) (i : Nat) : Bool := c.getLsbD i ^^ b.getLsbD i

/-- The byte step as sixteen exclusive-or equations, `n15` first (R64). -/
def crcByteParallel (c : Word16) (b : Byte) : Word16 :=
  BitVec.ofBoolListBE
    [feedBit c b 3 ^^ feedBit c b 7,
     feedBit c b 2 ^^ feedBit c b 6,
     feedBit c b 1 ^^ feedBit c b 5,
     feedBit c b 0 ^^ feedBit c b 4,
     feedBit c b 3,
     feedBit c b 2 ^^ feedBit c b 3 ^^ feedBit c b 7,
     feedBit c b 1 ^^ feedBit c b 2 ^^ feedBit c b 6,
     feedBit c b 0 ^^ feedBit c b 1 ^^ feedBit c b 5,
     c.getLsbD 15 ^^ feedBit c b 0 ^^ feedBit c b 4,
     c.getLsbD 14 ^^ feedBit c b 3,
     c.getLsbD 13 ^^ feedBit c b 2,
     c.getLsbD 12 ^^ feedBit c b 1,
     c.getLsbD 11 ^^ feedBit c b 0 ^^ feedBit c b 3 ^^ feedBit c b 7,
     c.getLsbD 10 ^^ feedBit c b 2 ^^ feedBit c b 6,
     c.getLsbD 9 ^^ feedBit c b 1 ^^ feedBit c b 5,
     c.getLsbD 8 ^^ feedBit c b 0 ^^ feedBit c b 4]

end Sys2Proof.Machine
end

