-- ==== Sys2Proof/Machine/Escape.lean ====
section
/-! DEFINITION. The Byte Stuffer (41_escape.md), and the reference inverse the spec states its properties through. -/

namespace Sys2Proof.Machine

/-- `esc_byte` (R70). -/
def escByte (c : Byte) : List Byte :=
  if isReserved c then [Config.esc, c ^^^ Config.escXor] else [c]

/-- `escape` (R71): every byte contributes its own one or two bytes at the place where it stood. -/
def escape : List Byte → List Byte
  | [] => []
  | c :: s => escByte c ++ escape s

/-- `count_reserved` (R10). -/
def countReserved : List Byte → Nat
  | [] => 0
  | c :: s => (if isReserved c then 1 else 0) + countReserved s

/-- `unescape` (R76), used to state properties only: no part of the hardware (R4). A lone escape marker at the end has no
inverse (U4, D21). -/
def unescape : List Byte → Option (List Byte)
  | [] => some []
  | [c] => if c = Config.esc then none else some [c]
  | c :: x :: r =>
    if c = Config.esc then (unescape r).map ((x ^^^ Config.escXor) :: ·)
    else (unescape (x :: r)).map (c :: ·)

end Sys2Proof.Machine
end

