-- ==== Sys2Proof/Machine/Frame.lean ====
section
/-! DEFINITION. The Frame Assembler at the function level (42_frame.md), the wire symbols a frame is made of (R50, R52), and
the reference decoder the spec states the round trip through (R88). -/

namespace Sys2Proof.Machine

/-- `LE16` (R78): low byte first. -/
def le16 (v : Word16) : List Byte := [lowByte v, highByte v]

/-- `combined` (R79). -/
def combined (p : List Byte) : List Byte := p ++ le16 (computeChecksum p)

/-- `assemble` (R80): checksum over the raw payload, append, escape together, delimiter last and unescaped. -/
def assemble (p : List Byte) : List Byte := escape (combined p) ++ [Config.flag]

/-- `build_frame` (R81), the sole boundary of the function level. -/
def buildFrame (p : List Byte) : List Byte := assemble p

/-- The frames of several payloads back to back: no fill, no second delimiter (R87). -/
def buildFrames : List (List Byte) → List Byte
  | [] => []
  | p :: ps => buildFrame p ++ buildFrames ps

/-- `decode_frame` (R88), used to state properties only: no part of the hardware (R4). The `none` results on input no
assembler makes are the spec's choice (D21, U4). -/
def decodeFrame (f : List Byte) : Option (List Byte) :=
  if f.getLast? = some Config.flag then
    match unescape f.dropLast with
    | none => none
    | some u =>
      let p := u.take (u.length - 2)
      match u.drop (u.length - 2) with
      | [lo, hi] => if computeChecksum p = wordOfBytes lo hi then some p else none
      | _ => none
  else none

/-- The wire symbols of R50. -/
inductive WireSymbol where
  /-- One byte that stands for itself. -/
  | literal (c : Byte)
  /-- Two bytes, the escape marker and `c xor 0x20`, that stand for the data byte `c`. -/
  | escapePair (c : Byte)
  /-- The end of the frame. -/
  | flag
  deriving DecidableEq, Repr

/-- The symbol a data byte goes out as: payload and checksum bytes alike (R50, R85). -/
def symbolOfByte (c : Byte) : WireSymbol :=
  if isReserved c then .escapePair c else .literal c

/-- The bytes of a symbol on the wire (R50). -/
def symbolBytes : WireSymbol → List Byte
  | .literal c => [c]
  | .escapePair c => [Config.esc, c ^^^ Config.escXor]
  | .flag => [Config.flag]

/-- A reader of the stream tells a symbol's length from its first byte (R52). A stream that ends after an escape marker is
no sequence of symbols. -/
def readSymbols : List Byte → Option (List WireSymbol)
  | [] => some []
  | [c] =>
    if c = Config.esc then none else some [if c = Config.flag then .flag else .literal c]
  | c :: x :: r =>
    if c = Config.esc then (readSymbols r).map (.escapePair (x ^^^ Config.escXor) :: ·)
    else (readSymbols (x :: r)).map ((if c = Config.flag then .flag else .literal c) :: ·)

end Sys2Proof.Machine
end

