-- ==== Sys2Proof/Syntax.lean ====
section
/-! DEFINITION. The operations of the command port, one constructor per row of spec/opcode_table.json. The set is closed
(R92, R98, R112). -/

namespace Sys2Proof

/-- The two operations (R43, R92). -/
inductive Instr where
  /-- `DATA b`: take one payload byte (R44, R93). -/
  | data (b : Byte)
  /-- `END`: close the frame (R45, R94). It has no operand. -/
  | endFrame
  deriving DecidableEq, Repr

end Sys2Proof
end

