-- ==== Sys2Proof/Decode.lean ====
section
/-! DEFINITION. From command words to operations and back (R43 to R47). Decoding is total: all 512 words decode and none is
rejected (R46, R47). After the decoder stand the encoder and the host's numbered view of a word. -/

namespace Sys2Proof

/-- The `end` bit of a command word, bit 8 (R43). -/
def endBit (w : CmdWord) : Bool := w.getLsbD 8

/-- The `byte` field of a command word, bits 7:0 (R43). -/
def byteField (w : CmdWord) : Byte := w.extractLsb' 0 8

/-- `decode` of R47. It reads nothing but the word; the `byte` field of an `END` word reaches nothing (R46). -/
def decode (w : CmdWord) : Instr :=
  if endBit w = false then .data (byteField w) else .endFrame

/-- `encode` of R47: the canonical word of an operation (R44, R45). -/
def encode : Instr → CmdWord
  | .data b => b.setWidth 9
  | .endFrame => 0x100#9

/-- The words of a sequence of operations, in order. -/
def encodeAll (is : List Instr) : List CmdWord := is.map encode

/-- The command word a number stands for when its bit 0 is the word's bit 0. The command port has nine wires, so number
bits above 8 have nowhere to go; bits at or above `nbits` are taken as 0 (log 10). -/
def cmdWordOfNat (nbits w : Nat) : CmdWord := BitVec.ofNat 9 (w % 2 ^ nbits)

/-- The operation read from a word numbered as spec/opcode_table.json numbers it. No word is refused (R46). -/
def decodeTableWord (nbits w : Nat) : Option Instr := some (decode (cmdWordOfNat nbits w))

end Sys2Proof
end

