-- ==== Sys2Proof/Machine/State.lean ====
section
/-! DEFINITION. The machine state of the beat level (R26): the register `crc` and the queue `pend`; beside them the
observation `out` (R15) and, since a step of the host's interface has no argument, the environment's own data: what it
drives on the input pins at each coming rising edge (R16, R48, R135). There is no memory, program counter, flag, control
register or mode to hold (R18 to R22, R37, R113). -/

namespace Sys2Proof.Machine

/-- What the environment drives on the four input pins at one rising edge of `clk` (R48). -/
structure PortInput where
  /-- `rst`: synchronous reset, active high. -/
  rst : Bool
  /-- `cmd_valid`: the caller presents a command word. -/
  cmdValid : Bool
  /-- `cmd`: the word, read only when it is accepted. -/
  cmd : CmdWord
  /-- `out_ready`: the consumer can take a byte. -/
  outReady : Bool
  deriving DecidableEq, Repr

/-- An edge at which nobody drives anything: no reset, no command, no ready consumer. -/
def PortInput.idle : PortInput := { rst := false, cmdValid := false, cmd := 0#9, outReady := false }

/-- The state. `crc` and `pend` are the block's; `out` is what the consumer has been given; `inputs` is the environment's. -/
structure State where
  /-- The CRC register: the running remainder before the final inversion (R13). -/
  crc : Word16
  /-- The pending-output queue, its head first (R14). -/
  pend : List Byte
  /-- Every byte delivered since the observation began, in order (R15). Nothing in the block reads it. -/
  out : List Byte
  /-- What the environment drives at the coming edges, the next edge first; past the end it drives nothing (log 1, log 2). -/
  inputs : List PortInput
  deriving DecidableEq, Repr

/-- What happens at one rising edge (R110): exactly one of these. -/
inductive EdgeEvent where
  /-- `rst = 1`: the step `RESET` (R119). -/
  | reset
  /-- `cmd_valid = cmd_ready = 1`: the step `ACCEPT(w)` (R102). -/
  | accept (w : CmdWord)
  /-- `out_valid = out_ready = 1`: the step `EMIT` (R103). -/
  | emit
  /-- No transfer: the block holds `crc` and `pend` (R103, R118). -/
  | hold
  deriving DecidableEq, Repr

/-- The faults: none. The hardware raises no exception and its set of exception causes is empty (R105, R107), so no
constructor stands here and no step can end in a fault. -/
inductive Fault where
  deriving DecidableEq, Repr

/-- The refusals. No operation of this hardware is refused (R105). -/
inductive Refusal where
  /-- An operation that has no meaning yet, raised by an arm of `exec` alone; safe, since nothing is proved of it. No arm
  raises it: both operations have their meaning. -/
  | notModelled (mnemonic : String)
  deriving DecidableEq, Repr

/-- The machine right after reset (R24, R120): `crc = 0xFFFF`, `pend` empty. The observation begins there with nothing
delivered, and nothing is driven (log 2, log 3). -/
def State.reset : State := { crc := 0xFFFF#16, pend := [], out := [], inputs := [] }

end Sys2Proof.Machine
end

