-- ==== Sys2Proof/Machine/Ops.lean ====
section
/-! DEFINITION. The named operations on the state: sampling the pins, the output pins, the three steps of the beat level
(`RESET`, `ACCEPT`, `EMIT`) and what an edge does. Taking an exception and returning from one would stand here: the hardware
has neither (R105, R111, R112). Nor is there a memory to read or write (R28, R37). -/

namespace Sys2Proof.Machine

/-- What is driven at the coming edge (R48). -/
def State.pins (s : State) : PortInput := s.inputs.headD PortInput.idle

/-- The environment moves on to the edge after this one. -/
def State.nextEdge (s : State) : State := { s with inputs := s.inputs.tail }

/-- `cmd_ready`: 1 exactly when `rst = 0` and `pend` is empty (R48). -/
def State.cmdReady (s : State) : Bool := !s.pins.rst && s.pend.isEmpty

/-- `out_valid`: 1 exactly when `rst = 0` and `pend` is not empty (R48). -/
def State.outValid (s : State) : Bool := !s.pins.rst && !s.pend.isEmpty

/-- `out_data`: the byte at the head of `pend`, and no byte while it is not meaningful (R48, log 11). -/
def State.outData (s : State) : Option Byte := if s.outValid then s.pend.head? else none

/-- What happens at the coming edge: reset wins over everything; a command is accepted where `cmd_valid = cmd_ready = 1`;
a byte is delivered where `out_valid = out_ready = 1` (R48, R110). -/
def State.edgeEvent (s : State) : EdgeEvent :=
  if s.pins.rst then .reset
  else if s.pins.cmdValid && s.cmdReady then .accept s.pins.cmd
  else if s.pins.outReady && s.outValid then .emit
  else .hold

/-- `RESET`: the block goes to `(0xFFFF, [])`; undelivered bytes are discarded and `out` is left as it was (R119, R121). -/
def State.applyReset (s : State) : State := { s with crc := Config.crcInit, pend := [] }

/-- `ACCEPT` of an operation with effect `(crc', emitted)`: the register is written and the bytes become pending (R102).
While bytes of an earlier command are pending the command is not accepted: it waits and changes nothing (R102, R107,
log 5). -/
def State.accept (effect : Word16 × List Byte) (s : State) : State :=
  if s.pend.isEmpty then { s with crc := effect.1, pend := effect.2 } else s

/-- `EMIT`: the byte at the head of `pend` is delivered (R103). -/
def State.emit (s : State) : State :=
  match s.pend with
  | [] => s
  | b :: rest => { s with out := s.out ++ [b], pend := rest }

/-- The consumer takes everything pending, as the `EMIT` steps would deliver it (R103). -/
def State.drain (s : State) : State := { s with out := s.out ++ s.pend, pend := [] }

/-- An edge at which the caller offers the word `w` and the consumer is not ready (R48). -/
def PortInput.offer (w : CmdWord) : PortInput := { rst := false, cmdValid := true, cmd := w, outReady := false }

/-- The state with the word `w` presented so that the coming edge accepts it: acceptance needs `pend` empty, so what is
pending is delivered first, and the offering edge comes before the edges already listed (R102, log 4). -/
def State.presentWord (s : State) (w : CmdWord) : State :=
  { s.drain with inputs := PortInput.offer w :: s.inputs }

end Sys2Proof.Machine
end

