-- ==== Sys2Proof/Machine/Stream.lean ====
section
/-! DEFINITION. The two operations of the command port (43_stream_ops.md): the effect each has at the transaction level, the
pair (crc', emitted) of R93 and R94, and the meaning built on it at the beat level, where the emitted bytes become pending
(R102). -/

namespace Sys2Proof.Machine

/-- `exec(crc, DATA(b))` of R93: the checksum takes the raw byte, the output takes the escaped byte. -/
def dataEffect (b : Byte) (c : Word16) : Word16 × List Byte := (crcByte c b, escByte b)

/-- `exec(crc, END)` of R94: the checksum low byte first, each byte escaped, then the delimiter; the register is ready for
the next frame. -/
def endEffect (c : Word16) : Word16 × List Byte :=
  (Config.crcInit,
    escByte (lowByte (checksumOfCrc c)) ++ escByte (highByte (checksumOfCrc c)) ++ [Config.flag])

/-- `DATA b` (R93, R102). -/
def execData (b : Byte) (s : State) : Host.Outcome State Fault Refusal :=
  .next (s.accept (dataEffect b s.crc))

/-- `END` (R94, R102). -/
def execEnd (s : State) : Host.Outcome State Fault Refusal :=
  .next (s.accept (endEffect s.crc))

end Sys2Proof.Machine
end

