-- ==== Sys2Proof/Machine/Dispatch.lean ====
section
/-! DEFINITION. The dispatch: one arm per operation (R92). -/

namespace Sys2Proof.Machine

def exec (i : Instr) (s : State) : Host.Outcome State Fault Refusal :=
  match i with
  | .data b => Sys2Proof.Machine.execData b s
  | .endFrame => Sys2Proof.Machine.execEnd s

end Sys2Proof.Machine
end

