-- ==== Sys2Proof/Machine/Step.lean ====
section
/-! DEFINITION. One step of the machine is one rising edge of `clk` (R48, log 1). -/

namespace Sys2Proof.Machine

/-- One rising edge: the pins are sampled, then `RESET`, `ACCEPT` of the decoded word, `EMIT`, or no transfer happens
(R101, R102, R103, R110, R119). -/
def step (s : State) : Host.Outcome State Fault Refusal :=
  match s.edgeEvent with
  | .reset => .next s.nextEdge.applyReset
  | .accept w => exec (decode w) s.nextEdge
  | .emit => .next s.nextEdge.emit
  | .hold => .next s.nextEdge

/-- The state in which the coming edge presents the numbered word, and accepts it (log 4, log 10). -/
def State.withFetchWord (s : State) (nbits w : Nat) : State := s.presentWord (cmdWordOfNat nbits w)

end Sys2Proof.Machine
end

