-- ==== Sys2Proof/Machine/Transaction.lean ====
section
/-! DEFINITION. The transaction-level machine (R91, R96): state `crc` alone, one atomic step per command word, the emitted
bytes its observation. Runs, the pseudo-instruction `FRAME` (R54), and the division of a command stream into invocations
(R96). -/

namespace Sys2Proof.Machine

/-- `exec` of R91 and R92: exactly two arms. -/
def txExec (c : Word16) : Instr → Word16 × List Byte
  | .data b => dataEffect b c
  | .endFrame => endEffect c

/-- `step` of R91: a total function of the register and the word. -/
def txStep (c : Word16) (w : CmdWord) : Word16 × List Byte := txExec c (decode w)

/-- `run` of R96. -/
def txRun : Word16 → List CmdWord → Word16 × List Byte
  | c, [] => (c, [])
  | c, w :: ws =>
    let (c1, e1) := txStep c w
    let (c2, e2) := txRun c1 ws
    (c2, e1 ++ e2)

/-- The `DATA` operations of a byte sequence, in order (R96). -/
def dataOps (p : List Byte) : List Instr := p.map Instr.data

/-- The invocation of a payload: its `DATA` operations closed by one `END`; the expansion of `FRAME` (R54, R96). -/
def frameOps (p : List Byte) : List Instr := dataOps p ++ [.endFrame]

/-- The command words of `FRAME p` (R54, R100). -/
def frameWords (p : List Byte) : List CmdWord := encodeAll (frameOps p)

/-- The operations of several complete invocations, in order. -/
def invocationOps : List (List Byte) → List Instr
  | [] => []
  | p :: ps => frameOps p ++ invocationOps ps

/-- The complete invocations' payloads and the unfinished tail of a stream of operations (R96). The first argument is the
payload taken so far, in order. -/
def splitInvocations : List Byte → List Instr → List (List Byte) × List Byte
  | open_, [] => ([], open_)
  | open_, .data b :: is => splitInvocations (open_ ++ [b]) is
  | open_, .endFrame :: is =>
    let (ps, tail) := splitInvocations [] is
    (open_ :: ps, tail)

end Sys2Proof.Machine
end

