-- ==== Sys2Proof/Machine/Assembler.lean ====
section
/-! DEFINITION. The textual notation for command sequences (R53) and its one pseudo-instruction `FRAME` (R54): one command a
line, `;` starts a comment that runs to the end of the line, case is not significant. What the spec does not say of the
notation is in log 13. -/

namespace Sys2Proof.Machine

/-- A capital ASCII letter becomes the small one; case is not significant (R53). -/
def lowerChar (c : Char) : Char :=
  if 65 ≤ c.toNat ∧ c.toNat ≤ 90 then Char.ofNat (c.toNat + 32) else c

/-- Space, tab and carriage return separate the words of a line (log 13). -/
def isBlank (c : Char) : Bool := c == ' ' || c == '\t' || c == '\r'

/-- The value of a hexadecimal digit in small letters (R53). -/
def hexValue (c : Char) : Option Nat :=
  if 48 ≤ c.toNat ∧ c.toNat ≤ 57 then some (c.toNat - 48)
  else if 97 ≤ c.toNat ∧ c.toNat ≤ 102 then some (c.toNat - 87)
  else none

/-- Two hexadecimal digits, the high one first (R10). -/
def hexByte (h l : Char) : Option Byte :=
  match hexValue h, hexValue l with
  | some x, some y => some (BitVec.ofNat 8 (16 * x + y))
  | _, _ => none

/-- A hexadecimal string of `2n` digits, read two digits a byte, left to right (R10, R54). -/
def hexBytes : List Char → Option (List Byte)
  | [] => some []
  | [_] => none
  | h :: l :: r =>
    match hexByte h l, hexBytes r with
    | some b, some bs => some (b :: bs)
    | _, _ => none

/-- The operand `0xHH` (R53). -/
def hexOperand : List Char → Option Byte
  | ['0', 'x', h, l] => hexByte h l
  | _ => none

/-- The words of a line. The first argument is the word read so far. -/
def lineWords : List Char → List Char → List (List Char)
  | cur, [] => if cur.isEmpty then [] else [cur]
  | cur, c :: r =>
    if isBlank c then (if cur.isEmpty then lineWords [] r else cur :: lineWords [] r)
    else lineWords (cur ++ [c]) r

/-- The operations a line stands for: none, one, or the expansion of `FRAME` (R53, R54). -/
def parseLine (l : List Char) : Option (List Instr) :=
  match lineWords [] ((l.takeWhile (· != ';')).map lowerChar) with
  | [] => some []
  | [k] =>
    if k = ['e', 'n', 'd'] then some [.endFrame]
    else if k = ['f', 'r', 'a', 'm', 'e'] then some (frameOps [])
    else none
  | [k, a] =>
    if k = ['d', 'a', 't', 'a'] then (hexOperand a).map fun b => [.data b]
    else if k = ['f', 'r', 'a', 'm', 'e'] then (hexBytes a).map frameOps
    else none
  | _ => none

/-- The lines of a text. The first argument is the line read so far. -/
def textLines : List Char → List Char → List (List Char)
  | cur, [] => [cur]
  | cur, c :: r => if c = '\n' then cur :: textLines [] r else textLines (cur ++ [c]) r

/-- The operations of several lines, in order. -/
def parseLines : List (List Char) → Option (List Instr)
  | [] => some []
  | l :: ls =>
    match parseLine l, parseLines ls with
    | some a, some b => some (a ++ b)
    | _, _ => none

/-- The operations of a program text (R53, R54). -/
def parseProgram (text : List Char) : Option (List Instr) := parseLines (textLines [] text)

/-- The hexadecimal digit of a number below 16. -/
def hexDigit (n : Nat) : Char :=
  ['0', '1', '2', '3', '4', '5', '6', '7', '8', '9', 'A', 'B', 'C', 'D', 'E', 'F'].getD n '0'

/-- A byte as two hexadecimal digits (R10). -/
def hexText (b : Byte) : List Char := [hexDigit (b.toNat / 16), hexDigit (b.toNat % 16)]

/-- The line of an operation (R53). -/
def printOp : Instr → List Char
  | .data b => ['D', 'A', 'T', 'A', ' ', '0', 'x'] ++ hexText b
  | .endFrame => ['E', 'N', 'D']

/-- The text of a sequence of operations, one a line (R53). -/
def printProgram : List Instr → List Char
  | [] => []
  | i :: is => printOp i ++ '\n' :: printProgram is

/-- The line `FRAME h` of a payload (R54). -/
def printFrame (p : List Byte) : List Char :=
  ['F', 'R', 'A', 'M', 'E', ' '] ++ p.flatMap hexText

end Sys2Proof.Machine
end

