-- ==== Sys2Proof/Machine/Several.lean ====
section
/-! DEFINITION. Several encoders (R27, R116): each has its own state, pins and output; they share the constant table only,
which is no state (R17). They have no identifiers and do not communicate; which of them has an edge is said from outside
(log 15). -/

namespace Sys2Proof.Machine

/-- One edge of encoder `k`; no other encoder moves. There being no encoder `k`, nothing moves. -/
def stepAt (k : Nat) (ss : List State) : Host.Outcome (List State) Fault Refusal :=
  match ss[k]? with
  | none => .next ss
  | some s =>
    match step s with
    | .next t => .next (ss.set k t)
    | .fault r => .fault r
    | .refused r => .refused r

end Sys2Proof.Machine
end

