-- ==== Sys2Proof/Machine/Environment.lean ====
section
/-! DEFINITION. The environment of the block (R135): the edges it can drive, what a run of edges did, and the duties of the
caller and the consumer that claims take as premises (R104, R129). -/

namespace Sys2Proof.Machine

/-- An edge at which the consumer is ready and no command is offered (R103). -/
def PortInput.takeByte : PortInput := { rst := false, cmdValid := false, cmd := 0#9, outReady := true }

/-- `k` edges, one after another: `Host.Core.run` of the machine, in this model's own names. -/
def runFor : Nat → State → Host.Outcome State Fault Refusal
  | 0, s => .next s
  | k + 1, s =>
    match step s with
    | .next t => runFor k t
    | .fault r => .fault r
    | .refused r => .refused r

/-- What happened at each of the first `k` edges from `s`, in order. -/
def edgeEvents : Nat → State → List EdgeEvent
  | 0, _ => []
  | k + 1, s =>
    s.edgeEvent ::
      (match step s with
        | .next t => edgeEvents k t
        | .fault _ => []
        | .refused _ => [])

/-- The word an edge accepts, if it accepts one. -/
def EdgeEvent.word? : EdgeEvent → Option CmdWord
  | .reset => none
  | .accept w => some w
  | .emit => none
  | .hold => none

/-- The command words accepted at the first `k` edges: the stream `cmds` of R16 (U10). -/
def acceptedWords (k : Nat) (s : State) : List CmdWord := (edgeEvents k s).filterMap EdgeEvent.word?

/-- How many of the first `k` edges deliver a byte (R133). -/
def emitCount (k : Nat) (s : State) : Nat := (edgeEvents k s).count .emit

/-- The reset driver leaves `rst` low at the first `k` edges. -/
def noReset (k : Nat) (s : State) : Prop := ∀ p ∈ s.inputs.take k, p.rst = false

/-- At how many of the first `k` edges the consumer is ready (R104). -/
def readyEdges (k : Nat) (s : State) : Nat := (s.inputs.take k).countP (·.outReady)

/-- The caller's duty at one edge: a word offered and not accepted is offered again, unchanged, at the next edge (R129). -/
def State.keepsOffer (s : State) : Bool :=
  !(s.pins.cmdValid && !s.cmdReady) || (s.nextEdge.pins.cmdValid && s.nextEdge.pins.cmd == s.pins.cmd)

/-- The caller keeps its duty at the first `k` edges (R129, R135). -/
def callerHolds : Nat → State → Bool
  | 0, _ => true
  | k + 1, s =>
    s.keepsOffer &&
      (match step s with
        | .next t => callerHolds k t
        | .fault _ => true
        | .refused _ => true)

/-- The edges at which a caller and a consumer serve the words one after another without a pause: one edge offers the word,
then one edge takes each byte it emits (R133). -/
def serve : Word16 → List CmdWord → List PortInput
  | _, [] => []
  | c, w :: ws =>
    PortInput.offer w ::
      (List.replicate (txStep c w).2.length PortInput.takeByte ++ serve (txStep c w).1 ws)

end Sys2Proof.Machine
end

