-- ==== Sys2Proof/Safety.lean ====
section
/-! DEFINITION. What claims speak of: the one outcome a step has, frame boundaries, the invariants of the state, the shape of
a frame on the wire, and a finished run. -/

namespace Sys2Proof.Machine

/-- The outcome is a next state: neither a fault nor a refusal (R105). -/
def answersNext {σ φ ρ : Type} (o : Host.Outcome σ φ ρ) : Prop := ∃ t, o = .next t

/-- A frame boundary: the block is as reset leaves it (R23). -/
abbrev State.frameBoundary (s : State) : Prop := s.crc = Config.crcInit ∧ s.pend = []

/-- Every escape marker is followed by 0x5D or 0x5E (R51 (b), R75 (b)). -/
def escPaired : List Byte → Bool
  | [] => true
  | c :: r => (c != Config.esc || r.head? == some 0x5D#8 || r.head? == some 0x5E#8) && escPaired r

/-- The delimiter occurs nowhere but at the end, if at all. -/
abbrev flagOnlyLast (l : List Byte) : Prop := Config.flag ∉ l.dropLast

/-- The invariant of the block: `pend` holds at most `PEND_MAX` bytes (R14); a pending delimiter is the last pending byte and
then the register already holds its initial value (R94, R97); every pending escape marker has its second byte behind it
(R75). -/
abbrev State.Inv (s : State) : Prop :=
  s.pend.length ≤ Config.pendMax ∧ flagOnlyLast s.pend ∧ (Config.flag ∈ s.pend → s.crc = Config.crcInit) ∧
    escPaired s.pend = true

/-- Every escape marker delivered or pending has its second byte behind it. A reset can break it (R125). -/
abbrev State.WireInv (s : State) : Prop := escPaired (s.out ++ s.pend) = true

/-- The shape of a frame (R51): (a) the delimiter exactly once, last; (b) every escape marker heads a pair; (c) it does not
end in 0x7D 0x7E; (d) at least three bytes. -/
abbrev wireFrame (f : List Byte) : Prop :=
  (f.getLast? = some Config.flag ∧ Config.flag ∉ f.dropLast) ∧ escPaired f = true ∧
    f.dropLast.getLast? ≠ some Config.esc ∧ 3 ≤ f.length

/-- A finished run: its commands are consumed, the last was `END` or there was none, and nothing is pending (R134). -/
def finishedRun (ws : List CmdWord) (s : State) : Prop :=
  (ws = [] ∨ (ws.getLast?.map decode = some .endFrame)) ∧ s.pend = []

end Sys2Proof.Machine
end

