-- ==== Sys2Proof/Certificates/Slice0/Obligations.lean ====
section
/-! DEFINITION. The statements for the provers, in the order of spec/: command words, checksum engine, byte stuffer, frame
assembler, the two operations, the edges of the beat level, invariants, runs and their refinement of `build_frame`. -/

open Sys2Proof Sys2Proof.Machine

/-! ## Command words (30_encoding.md) -/

/-- V18, each word written out bit by bit from R43. -/
def Obligations.SampleCommandWordsDecode : Prop :=
  decode 0b000000000#9 = .data 0x00#8 ∧ decode 0b001111110#9 = .data 0x7E#8 ∧
  decode 0b011111111#9 = .data 0xFF#8 ∧ decode 0b100000000#9 = .endFrame ∧
  decode 0b100000001#9 = .endFrame ∧ decode 0b101111110#9 = .endFrame ∧ decode 0b111111111#9 = .endFrame

/-- R47: the decoder, the encoder, and that they agree: on every operation, and on a word exactly when it lies below the
reserved range 0x101 to 0x1FF. -/
def Obligations.DecodeAndEncodeAgree : Prop :=
  (∀ w : CmdWord, decode w = if w.getLsbD 8 = false then .data (w.extractLsb' 0 8) else .endFrame) ∧
  (∀ b : Byte, encode (.data b) = b.setWidth 9) ∧ encode .endFrame = 0x100#9 ∧
  (∀ i : Instr, decode (encode i) = i) ∧
  (∀ w : CmdWord, encode (decode w) = w ↔ w < 0x101#9)

/-- R46: every word with the `end` bit set, the reserved ones among them, does what 0x100 does: same register, same bytes,
same next state at the edge that offers it. -/
def Obligations.ReservedEndWordsActAsEnd : Prop :=
  ∀ (w : CmdWord) (s : State) (p : PortInput) (rest : List PortInput), 0x100#9 ≤ w →
    decode w = .endFrame ∧ (∀ c, txStep c w = txStep c 0x100#9) ∧
    step { s with inputs := { p with cmd := w } :: rest } =
      step { s with inputs := { p with cmd := 0x100#9 } :: rest }

/-- R53, R54: the text of a sequence of operations reads back as that sequence, and the line `FRAME h` reads as the `DATA`
operations of its bytes and one `END`. -/
def Obligations.ProgramTextReadsBack : Prop :=
  (∀ is : List Instr, parseProgram (printProgram is) = some is) ∧
  (∀ p : List Byte, parseProgram (printFrame p) = some (p.map Instr.data ++ [.endFrame]))

/-! ## The Checksum Engine (40_crc.md) -/

/-- R57: the one-bit step, the shift inside it bit by bit, and the corner cases. -/
def Obligations.CrcBitFollowsTheShiftRule : Prop :=
  (∀ c : Word16, crcBit c = if c.getLsbD 0 then (c >>> 1) ^^^ 0x8408#16 else c >>> 1) ∧
  (∀ c : Word16, (c >>> 1).getLsbD 15 = false ∧ ∀ i < 15, (c >>> 1).getLsbD i = c.getLsbD (i + 1)) ∧
  crcBit 0x0000#16 = 0x0000#16 ∧ crcBit 0x0001#16 = 0x8408#16 ∧ crcBit 0xFFFF#16 = 0xFBF7#16 ∧
  crcBit 0x8408#16 = 0x4204#16 ∧ crcBit 0xFF82#16 = 0x7FC1#16

/-- R58: the byte enters the low eight bits and eight one-bit steps follow, which is the same as feeding the byte one bit at
a time, bit 0 first; the result depends on the register's low byte and the byte only through their exclusive-or; the corner
cases and the step-by-step example. -/
def Obligations.CrcByteIsEightBitSteps : Prop :=
  (∀ (c : Word16) (b : Byte), crcByte c b =
    crcBit (crcBit (crcBit (crcBit (crcBit (crcBit (crcBit (crcBit (c ^^^ b.setWidth 16))))))))) ∧
  (∀ (c : Word16) (b : Byte), crcByte c b = ((List.range 8).map b.getLsbD).foldl crcFeedBit c) ∧
  (∀ (c : Word16) (b : Byte), crcByte c b = crcByte (c ^^^ b.setWidth 16) 0x00#8) ∧
  crcByte 0x0000#16 0x00#8 = 0x0000#16 ∧ crcByte 0xFFFF#16 0x00#8 = 0x0F87#16 ∧
  crcByte 0xFFFF#16 0xFF#8 = 0x00FF#16 ∧ crcByte 0xFFFF#16 0x7D#8 = 0xA7E5#16 ∧
  crcByte 0xFFFF#16 0x7E#8 = 0x957E#16 ∧ crcByte 0xFFFF#16 0x31#8 = 0x2F8D#16 ∧
  crcByte 0xFFFF#16 0x41#8 = 0x5C0A#16 ∧
  (List.range 9).map (fun n => crcBitTimes n (0xFFFF#16 ^^^ 0x7D#16)) =
    [0xFF82#16, 0x7FC1#16, 0xBBE8#16, 0x5DF4#16, 0x2EFA#16, 0x177D#16, 0x8FB6#16, 0x47DB#16, 0xA7E5#16]

/-- R59: the run is a left fold of the byte step, first byte first, so it runs over `s ++ t` as over `s` and then `t`. -/
def Obligations.CrcRunIsALeftFold : Prop :=
  (∀ c, crcRun c [] = c) ∧ (∀ c b s, crcRun c (b :: s) = crcRun (crcByte c b) s) ∧
  (∀ c s, crcRun c s = s.foldl crcByte c) ∧ (∀ c s t, crcRun c (s ++ t) = crcRun (crcRun c s) t)

/-- R60, R61, R66: the checksum of a payload, of the empty payload, of the source's vector, and the check value with the
register after each of its nine bytes. -/
def Obligations.ChecksumOfAPayload : Prop :=
  (∀ p, computeChecksum p = crcRun 0xFFFF#16 p ^^^ 0xFFFF#16) ∧ computeChecksum [] = 0x0000#16 ∧
  crcRun 0xFFFF#16 [0x7D#8, 0x02#8, 0x88#8, 0x13#8, 0xA5#8, 0x13#8] = 0xBF3C#16 ∧
  computeChecksum [0x7D#8, 0x02#8, 0x88#8, 0x13#8, 0xA5#8, 0x13#8] = 0x40C3#16 ∧
  (let digits : List Byte := [0x31#8, 0x32#8, 0x33#8, 0x34#8, 0x35#8, 0x36#8, 0x37#8, 0x38#8, 0x39#8]
   computeChecksum digits = 0x906E#16 ∧
   (List.range 9).map (fun n => crcRun 0xFFFF#16 (digits.take (n + 1))) =
    [0x2F8D#16, 0x4D53#16, 0x634B#16, 0x8B13#16, 0x44BF#16, 0x198D#16, 0x1AC8#16, 0xF795#16, 0x6F91#16])

/-- R62: the left-shifting form with explicit reflection computes the same run and the same checksum. -/
def Obligations.LeftShiftingFormIsEquivalent : Prop :=
  (∀ (c : Word16) (s : List Byte), reflect16 (msbRun (reflect16 c) s) = crcRun c s) ∧
  (∀ p, computeChecksumMsb p = computeChecksum p) ∧
  reflect16 0xFFFF#16 = 0xFFFF#16 ∧ reflect16 0x1021#16 = 0x8408#16

/-- R30, R63: the printed table holds what its formula says, the table-driven byte step is the byte step, and whether the
engine is built with the table is unobservable. -/
def Obligations.TableFormIsEquivalent : Prop :=
  tableRom.length = 256 ∧ (∀ i : Byte, tableRead i = crcBitTimes 8 (i.setWidth 16)) ∧
  (∀ (c : Word16) (b : Byte),
    crcByte c b = (c >>> 8) ^^^ tableRead ((c ^^^ b.setWidth 16).extractLsb' 0 8)) ∧
  (∀ (useTable : Bool) (c : Word16) (b : Byte), crcByteBuilt useTable c b = crcByte c b) ∧
  tableRead 0x00#8 = 0x0000#16 ∧ tableRead 0x01#8 = 0x1189#16 ∧ tableRead 0x80#8 = 0x8408#16 ∧
  tableRead 0xFF#8 = 0x0F78#16

/-- R64: the byte step as sixteen exclusive-or equations. -/
def Obligations.ParallelFormIsEquivalent : Prop :=
  ∀ (c : Word16) (b : Byte),
    let x := fun i : Nat => (c.getLsbD i ^^ b.getLsbD i)
    let n := fun i : Nat => (crcByte c b).getLsbD i
    (n 15 = (x 3 ^^ x 7) ∧ n 14 = (x 2 ^^ x 6) ∧ n 13 = (x 1 ^^ x 5) ∧ n 12 = (x 0 ^^ x 4) ∧
     n 11 = x 3 ∧ n 10 = (x 2 ^^ x 3 ^^ x 7) ∧ n 9 = (x 1 ^^ x 2 ^^ x 6) ∧ n 8 = (x 0 ^^ x 1 ^^ x 5) ∧
     n 7 = (c.getLsbD 15 ^^ x 0 ^^ x 4) ∧ n 6 = (c.getLsbD 14 ^^ x 3) ∧ n 5 = (c.getLsbD 13 ^^ x 2) ∧
     n 4 = (c.getLsbD 12 ^^ x 1) ∧ n 3 = (c.getLsbD 11 ^^ x 0 ^^ x 3 ^^ x 7) ∧
     n 2 = (c.getLsbD 10 ^^ x 2 ^^ x 6) ∧ n 1 = (c.getLsbD 9 ^^ x 1 ^^ x 5) ∧
     n 0 = (c.getLsbD 8 ^^ x 0 ^^ x 4)) ∧
    crcByteParallel c b = crcByte c b

/-- R65: the bit step and the byte step of zero are linear, byte step and run are affine, and the byte step is a bijection of
the register for each byte. -/
def Obligations.CrcStepsAreAffineAndBijective : Prop :=
  (∀ a b, crcBit (a ^^^ b) = crcBit a ^^^ crcBit b) ∧
  (∀ a b, crcByte (a ^^^ b) 0x00#8 = crcByte a 0x00#8 ^^^ crcByte b 0x00#8) ∧
  (∀ a b n, crcRun (a ^^^ b) (List.replicate n 0x00#8) =
    crcRun a (List.replicate n 0x00#8) ^^^ crcRun b (List.replicate n 0x00#8)) ∧
  (∀ a a' b, crcByte (a ^^^ a') b = crcByte a b ^^^ crcByte a' 0x00#8) ∧
  (∀ a a' s, crcRun (a ^^^ a') s = crcRun a s ^^^ crcRun a' (List.replicate s.length 0x00#8)) ∧
  (∀ b, Function.Bijective fun c => crcByte c b)

/-- R32, R68: the run feeds the bits of the bytes to the register one at a time, bit 0 of each byte first, in exactly
`8 * len` one-bit steps. -/
def Obligations.BitsEnterLeastSignificantFirst : Prop :=
  ∀ (c : Word16) (s : List Byte),
    crcRun c s = (s.flatMap bitsLsbFirst).foldl crcFeedBit c ∧ (s.flatMap bitsLsbFirst).length = 8 * s.length ∧
    ∀ b ∈ s, bitsLsbFirst b = (List.range 8).map b.getLsbD

/-- R67: the residue. -/
def Obligations.ChecksumResidue : Prop :=
  ∀ p : List Byte,
    let v := computeChecksum p
    crcRun 0xFFFF#16 (p ++ [v.extractLsb' 0 8, v.extractLsb' 8 8]) = 0xF0B8#16 ∧
    computeChecksum (p ++ le16 v) = 0x0F47#16

/-! ## The Byte Stuffer (41_escape.md) -/

/-- R70 over all 256 values, and what `xor 0x20` does to a byte. -/
def Obligations.EscapeOfOneByte : Prop :=
  escByte 0x7D#8 = [0x7D#8, 0x5D#8] ∧ escByte 0x7E#8 = [0x7D#8, 0x5E#8] ∧
  (∀ c : Byte, c ≠ 0x7D#8 → c ≠ 0x7E#8 → escByte c = [c]) ∧
  (∀ (c : Byte) (i : Nat), i < 8 → (c ^^^ 0x20#8).getLsbD i = (c.getLsbD i ^^ decide (i = 5)))

/-- R71, R73: `escape` is the concatenation of the bytes' own escapes, in order, and distributes over concatenation. -/
def Obligations.EscapeIsBytewise : Prop :=
  escape [] = [] ∧ (∀ d, escape d = d.flatMap escByte) ∧ (∀ s t, escape (s ++ t) = escape s ++ escape t) ∧
  escape [0x7D#8, 0x02#8, 0x7E#8, 0x5E#8] = [0x7D#8, 0x5D#8, 0x02#8, 0x7D#8, 0x5E#8, 0x5E#8]

/-- R72: the length law, its bounds, and when each bound is met. -/
def Obligations.EscapeLength : Prop :=
  ∀ d : List Byte,
    (escape d).length = d.length + d.countP (fun c => c == 0x7D#8 || c == 0x7E#8) ∧
    countReserved d = d.countP (fun c => c == 0x7D#8 || c == 0x7E#8) ∧
    d.length ≤ (escape d).length ∧ (escape d).length ≤ 2 * d.length ∧
    ((escape d).length = d.length ↔ ∀ c ∈ d, c ≠ 0x7D#8 ∧ c ≠ 0x7E#8) ∧
    ((escape d).length = 2 * d.length ↔ ∀ c ∈ d, c = 0x7D#8 ∨ c = 0x7E#8)

/-- R74: data free of reserved bytes passes unchanged; `escape` is not idempotent on other data; a frame holds `escape` of
its data bytes, applied once. -/
def Obligations.EscapeOfUnreservedDataIsUnchanged : Prop :=
  (∀ d : List Byte, countReserved d = 0 → escape d = d ∧ (escape d).length = d.length) ∧
  escape (escape [0x7D#8]) = escape [0x7D#8, 0x5D#8] ∧
  escape [0x7D#8, 0x5D#8] = [0x7D#8, 0x5D#8, 0x5D#8] ∧ escape [0x7D#8, 0x5D#8] ≠ escape [0x7D#8] ∧
  (∀ p, assemble p = escape (p ++ le16 (computeChecksum p)) ++ [0x7E#8])

/-- R75: (a) no delimiter; (b) every escape marker is followed by 0x5D or 0x5E; (c) no marker at the end; (d) reading from
the left splits the output into one symbol per byte of the data. -/
def Obligations.EscapeOutputAlphabet : Prop :=
  ∀ d : List Byte,
    0x7E#8 ∉ escape d ∧
    (∀ i, (escape d)[i]? = some 0x7D#8 →
      (escape d)[i + 1]? = some 0x5D#8 ∨ (escape d)[i + 1]? = some 0x5E#8) ∧
    (escape d).getLast? ≠ some 0x7D#8 ∧
    readSymbols (escape d) = some (d.map symbolOfByte)

/-- R76: the rules of `unescape`, that it is a left inverse of `escape`, that it is not injective, and that `escape` undoes
it exactly on the image of `escape`. -/
def Obligations.UnescapeInvertsEscape : Prop :=
  unescape [] = some [] ∧ unescape [0x7D#8] = none ∧
  (∀ x r, unescape (0x7D#8 :: x :: r) = (unescape r).map ((x ^^^ 0x20#8) :: ·)) ∧
  (∀ c r, c ≠ 0x7D#8 → unescape (c :: r) = (unescape r).map (c :: ·)) ∧
  (∀ b, unescape (escape b) = some b) ∧
  unescape [0x7D#8, 0x5E#8] = some [0x7E#8] ∧ unescape [0x7E#8] = some [0x7E#8] ∧
  unescape [0x7D#8, 0x00#8] = some [0x20#8] ∧
  (∀ s u, unescape s = some u → (escape u = s ↔ ∃ d, s = escape d))

/-! ## The Frame Assembler (42_frame.md) -/

/-- R78, R79: low byte first, and the payload with its two checksum bytes. -/
def Obligations.ChecksumGoesLowByteFirst : Prop :=
  (∀ v : Word16, le16 v = [v.extractLsb' 0 8, v.extractLsb' 8 8]) ∧
  le16 0x0000#16 = [0x00#8, 0x00#8] ∧ le16 0x7E7D#16 = [0x7D#8, 0x7E#8] ∧ le16 0x00FF#16 = [0xFF#8, 0x00#8] ∧
  le16 0x40C3#16 = [0xC3#8, 0x40#8] ∧
  (∀ p, combined p = p ++ le16 (computeChecksum p) ∧ (combined p).length = p.length + 2) ∧
  combined [0x7D#8, 0x02#8, 0x88#8, 0x13#8, 0xA5#8, 0x13#8] =
    [0x7D#8, 0x02#8, 0x88#8, 0x13#8, 0xA5#8, 0x13#8, 0xC3#8, 0x40#8]

/-- R80, R81, R82, R85, R86: the five steps as one definition, the source's canonical frame, the empty payload, escaped
checksum bytes, and the checksum over the raw payload. -/
def Obligations.FrameFollowsTheFiveSteps : Prop :=
  (∀ p, assemble p = escape (p ++ le16 (computeChecksum p)) ++ [0x7E#8]) ∧ (∀ p, buildFrame p = assemble p) ∧
  assemble [0x7D#8, 0x02#8, 0x88#8, 0x13#8, 0xA5#8, 0x13#8] =
    [0x7D#8, 0x5D#8, 0x02#8, 0x88#8, 0x13#8, 0xA5#8, 0x13#8, 0xC3#8, 0x40#8, 0x7E#8] ∧
  combined [] = [0x00#8, 0x00#8] ∧ assemble [] = [0x00#8, 0x00#8, 0x7E#8] ∧
  computeChecksum [0x60#8] = 0x937E#16 ∧ assemble [0x60#8] = [0x60#8, 0x7D#8, 0x5E#8, 0x93#8, 0x7E#8] ∧
  computeChecksum [0x19#8] = 0x7D38#16 ∧ assemble [0x19#8] = [0x19#8, 0x38#8, 0x7D#8, 0x5D#8, 0x7E#8] ∧
  computeChecksum [0x7D#8] = 0x581A#16 ∧ assemble [0x7D#8] = [0x7D#8, 0x5D#8, 0x1A#8, 0x58#8, 0x7E#8]

/-- R83: the length of a frame, its bounds and when the upper one is met, the length of its checksum part, and the printed
witnesses. -/
def Obligations.FrameLength : Prop :=
  (∀ p : List Byte,
    (assemble p).length = p.length + 3 + countReserved (combined p) ∧
    p.length + 3 ≤ (assemble p).length ∧ (assemble p).length ≤ 2 * p.length + 5 ∧
    ((assemble p).length = 2 * p.length + 5 ↔
      (∀ b ∈ p, b = 0x7D#8 ∨ b = 0x7E#8) ∧ (∀ b ∈ le16 (computeChecksum p), b = 0x7D#8 ∨ b = 0x7E#8))) ∧
  (∀ v : Word16, 3 ≤ (escape (le16 v) ++ [0x7E#8]).length ∧ (escape (le16 v) ++ [0x7E#8]).length ≤ 5) ∧
  (assemble []).length = 3 ∧
  (let p : List Byte :=
     [0x7E#8, 0x7E#8, 0x7E#8, 0x7D#8, 0x7D#8, 0x7E#8, 0x7E#8, 0x7E#8, 0x7D#8, 0x7E#8, 0x7E#8]
   computeChecksum p = 0x7D7D#16 ∧ (assemble p).length = 27) ∧
  computeChecksum [0x1B#8, 0x00#8] = 0x7E7E#16 ∧
  assemble [0x1B#8, 0x00#8] = [0x1B#8, 0x00#8, 0x7D#8, 0x5E#8, 0x7D#8, 0x5E#8, 0x7E#8]

/-- R83: no payload of 1 to 10 reserved bytes reaches the length bound `2n + 5`. -/
def Obligations.NoShortPayloadReachesTheLengthBound : Prop :=
  ∀ p : List Byte, 1 ≤ p.length → p.length ≤ 10 → (∀ b ∈ p, b = 0x7D#8 ∨ b = 0x7E#8) →
    (assemble p).length < 2 * p.length + 5

/-- R51, R84: the delimiter occurs exactly once, last; every escape marker heads a pair; the byte before the delimiter is no
escape marker; at least three bytes. -/
def Obligations.FrameShapeOnTheWire : Prop :=
  ∀ p : List Byte,
    (assemble p).count 0x7E#8 = 1 ∧ (assemble p).getLast? = some 0x7E#8 ∧
    (∀ i, (assemble p)[i]? = some 0x7D#8 →
      (assemble p)[i + 1]? = some 0x5D#8 ∨ (assemble p)[i + 1]? = some 0x5E#8) ∧
    (assemble p).dropLast.getLast? ≠ some 0x7D#8 ∧ 3 ≤ (assemble p).length

/-- R49, R50, R52: a frame is the symbols of its data bytes, payload and checksum alike, then the flag, and the reader finds
exactly those. -/
def Obligations.FrameReadsBackAsSymbols : Prop :=
  ∀ p : List Byte,
    let symbols := (combined p).map symbolOfByte ++ [WireSymbol.flag]
    assemble p = symbols.flatMap symbolBytes ∧ readSymbols (assemble p) = some symbols

/-- R88: the round trip; what `decode_frame` does with a sequence that lacks the delimiter, whose body has no inverse, whose
body is too short, or whose checksum is compared; and that stripping the delimiter before or after `unescape` is the same on
a frame. -/
def Obligations.FrameRoundTrip : Prop :=
  (∀ p : List Byte, decodeFrame (assemble p) = some p) ∧
  (∀ f : List Byte, f.getLast? ≠ some 0x7E#8 → decodeFrame f = none) ∧
  (∀ body : List Byte, unescape body = none → decodeFrame (body ++ [0x7E#8]) = none) ∧
  (∀ body u : List Byte, unescape body = some u → u.length < 2 → decodeFrame (body ++ [0x7E#8]) = none) ∧
  (∀ (body p : List Byte) (lo hi : Byte), unescape body = some (p ++ [lo, hi]) →
    decodeFrame (body ++ [0x7E#8]) = if (computeChecksum p).toNat = lo.toNat + 256 * hi.toNat then some p else none) ∧
  (∀ p : List Byte, unescape (assemble p) = some (combined p ++ [0x7E#8]) ∧
    unescape (assemble p).dropLast = some (combined p))

/-- R90: equal frames come from equal payloads. -/
def Obligations.FramesDetermineTheirPayloads : Prop :=
  ∀ p q : List Byte, assemble p = assemble q → p = q

/-! ## The two operations (43_stream_ops.md) -/

/-- R93: `DATA b` completes in every state with nothing pending, for every byte and register, and changes `crc` and `pend`
alone; its effect at the transaction level and the printed example. -/
def Obligations.DataTakesOnePayloadByte : Prop :=
  (∀ (b : Byte) (s : State), s.pend = [] →
    exec (.data b) s = .next { s with crc := crcByte s.crc b, pend := escByte b }) ∧
  (∀ (c : Word16) (b : Byte), txStep c (b.setWidth 9) = (crcByte c b, escByte b)) ∧
  txStep 0xFFFF#16 0x07D#9 = (0xA7E5#16, [0x7D#8, 0x5D#8])

/-- R94: `END` completes in every state with nothing pending and changes `crc` and `pend` alone; its effect at the
transaction level, and the printed corner cases. -/
def Obligations.EndClosesTheFrame : Prop :=
  (∀ s : State, s.pend = [] →
    exec .endFrame s = .next { s with
      crc := 0xFFFF#16,
      pend := escByte ((s.crc ^^^ 0xFFFF#16).extractLsb' 0 8) ++ escByte ((s.crc ^^^ 0xFFFF#16).extractLsb' 8 8) ++
        [0x7E#8] }) ∧
  (∀ (c : Word16) (w : CmdWord), w.getLsbD 8 = true →
    txStep c w = (0xFFFF#16,
      escByte ((c ^^^ 0xFFFF#16).extractLsb' 0 8) ++ escByte ((c ^^^ 0xFFFF#16).extractLsb' 8 8) ++ [0x7E#8])) ∧
  txStep 0xFFFF#16 0x100#9 = (0xFFFF#16, [0x00#8, 0x00#8, 0x7E#8]) ∧
  txRun 0xFFFF#16 [0x100#9, 0x100#9] = (0xFFFF#16, [0x00#8, 0x00#8, 0x7E#8, 0x00#8, 0x00#8, 0x7E#8]) ∧
  txStep 0x8182#16 0x100#9 = (0xFFFF#16, [0x7D#8, 0x5D#8, 0x7D#8, 0x5E#8, 0x7E#8]) ∧
  txStep 0xBF3C#16 0x100#9 = (0xFFFF#16, [0xC3#8, 0x40#8, 0x7E#8])

/-- R95: the bytes each operation emits, row by row, and that no operation emits fewer than 1 or more than 5. -/
def Obligations.BytesEmittedPerOperation : Prop :=
  (∀ (c : Word16) (b : Byte),
    (txExec c (.data b)).2 = if b = 0x7D#8 ∨ b = 0x7E#8 then [0x7D#8, b ^^^ 0x20#8] else [b]) ∧
  (∀ c : Word16,
    let lo : Byte := (c ^^^ 0xFFFF#16).extractLsb' 0 8
    let hi : Byte := (c ^^^ 0xFFFF#16).extractLsb' 8 8
    (txExec c .endFrame).2 =
      if lo = 0x7D#8 ∨ lo = 0x7E#8 then
        if hi = 0x7D#8 ∨ hi = 0x7E#8 then [0x7D#8, lo ^^^ 0x20#8, 0x7D#8, hi ^^^ 0x20#8, 0x7E#8]
        else [0x7D#8, lo ^^^ 0x20#8, hi, 0x7E#8]
      else if hi = 0x7D#8 ∨ hi = 0x7E#8 then [lo, 0x7D#8, hi ^^^ 0x20#8, 0x7E#8]
      else [lo, hi, 0x7E#8]) ∧
  (∀ (c : Word16) (i : Instr), 1 ≤ (txExec c i).2.length ∧ (txExec c i).2.length ≤ 5)

/-- R102, R107: a command met while bytes are pending waits and changes nothing (log 5). -/
def Obligations.OperationWaitsWhileBytesArePending : Prop :=
  ∀ (i : Instr) (s : State), s.pend ≠ [] → exec i s = .next s

/-- R105: no operation and no edge ends in a fault or a refusal, and there is no fault it could end in. -/
def Obligations.NothingFaultsOrRefuses : Prop :=
  (∀ i s, answersNext (exec i s)) ∧ (∀ s, answersNext (step s)) ∧ (Fault → False)

/-! ## One edge of the beat level (R48, R101 to R103, R110, R119) -/

/-- R48, R110: the output pins, and which transfer an edge makes. Reset wins; a command is accepted exactly where
`cmd_valid = cmd_ready = 1`; a byte is delivered exactly where `out_valid = out_ready = 1`; never both; and `cmd` is read
only where it is accepted. -/
def Obligations.PinsDecideTheTransfer : Prop :=
  (∀ s : State,
    (s.cmdReady = true ↔ s.pins.rst = false ∧ s.pend = []) ∧
    (s.outValid = true ↔ s.pins.rst = false ∧ s.pend ≠ []) ∧
    (s.outValid = true → s.outData = s.pend.head?) ∧
    (s.edgeEvent = .reset ↔ s.pins.rst = true) ∧
    (∀ w, s.edgeEvent = .accept w ↔ s.pins.cmdValid = true ∧ s.cmdReady = true ∧ s.pins.cmd = w) ∧
    (s.edgeEvent = .emit ↔ s.pins.outReady = true ∧ s.outValid = true) ∧
    ¬ (s.cmdReady = true ∧ s.outValid = true)) ∧
  (∀ (s : State) (p : PortInput) (rest : List PortInput) (w : CmdWord), s.inputs = p :: rest →
    ¬ (p.cmdValid = true ∧ s.cmdReady = true) →
    step { s with inputs := { p with cmd := w } :: rest } = step s)

/-- A step runs the decoded operation: where a word is accepted, the step is `exec` of the decoded word at the state whose
environment has moved on by one edge, and nothing else is added. -/
def Obligations.StepRunsTheDecodedWord : Prop :=
  ∀ s : State, s.pins.rst = false → s.pins.cmdValid = true → s.pend = [] →
    step s = exec (decode s.pins.cmd) { s with inputs := s.inputs.tail }

/-- The host's presentation of a word (log 4, log 10): the next step runs it, with what was pending delivered first. -/
def Obligations.PresentedWordRunsNext : Prop :=
  ∀ (s : State) (nbits w : Nat),
    step (s.withFetchWord nbits w) =
      exec (decode (BitVec.ofNat 9 (w % 2 ^ nbits))) { s with out := s.out ++ s.pend, pend := [] } ∧
    decodeTableWord nbits w = some (decode (BitVec.ofNat 9 (w % 2 ^ nbits)))

/-- R102: `ACCEPT(w)`. `out` is not changed; while bytes are pending the offered word is not accepted. -/
def Obligations.AcceptStep : Prop :=
  (∀ s : State, s.pins.rst = false → s.pins.cmdValid = true → s.pend = [] →
    step s = .next { s with
      crc := (txStep s.crc s.pins.cmd).1, pend := (txStep s.crc s.pins.cmd).2, inputs := s.inputs.tail }) ∧
  (∀ s : State, s.pend ≠ [] → s.cmdReady = false ∧ ∀ w, s.edgeEvent ≠ .accept w)

/-- R103: `EMIT` delivers the head of `pend` and changes `out` and `pend` alone; while the consumer is not ready the block
keeps `pend` and holds `out_data`. -/
def Obligations.EmitStep : Prop :=
  (∀ (s : State) (b : Byte) (rest : List Byte), s.pins.rst = false → s.pins.outReady = true → s.pend = b :: rest →
    s.outData = some b ∧
    step s = .next { s with out := s.out ++ [b], pend := rest, inputs := s.inputs.tail }) ∧
  (∀ s : State, s.pins.rst = false → s.pins.outReady = false → s.pend ≠ [] →
    step s = .next { s with inputs := s.inputs.tail } ∧
    (s.nextEdge.pins.rst = false → s.nextEdge.outData = s.outData))

/-- R118: with no command offered and nothing pending the block holds its state. -/
def Obligations.IdleEdgeHoldsTheState : Prop :=
  ∀ s : State, s.pins.rst = false → s.pins.cmdValid = false → s.pend = [] →
    step s = .next { s with inputs := s.inputs.tail }

/-- R119, R121: an edge with `rst = 1` leaves `(0xFFFF, [])` from every state, accepts and delivers nothing and leaves `out`
alone; holding reset for more edges has the same effect. -/
def Obligations.ResetStep : Prop :=
  (∀ s : State, s.pins.rst = true →
    s.cmdReady = false ∧ s.outValid = false ∧
    step s = .next { s with crc := 0xFFFF#16, pend := [], inputs := s.inputs.tail }) ∧
  (∀ (k : Nat) (s : State), k + 1 ≤ s.inputs.length → (∀ p ∈ s.inputs.take (k + 1), p.rst = true) →
    runFor (k + 1) s = .next { s with crc := 0xFFFF#16, pend := [], inputs := s.inputs.drop (k + 1) })

/-- R120: the values reset leaves. -/
def Obligations.ResetValues : Prop :=
  State.reset.crc = 0xFFFF#16 ∧ State.reset.pend = [] ∧ State.reset.frameBoundary

/-- R122: at a frame boundary the block waits for the first command word; a `DATA` word starts the payload from 0xFFFF, an
`END` word emits the empty-payload frame. The state a reset leaves is a frame boundary. -/
def Obligations.FirstOperationAfterReset : Prop :=
  (∀ s : State, s.applyReset.frameBoundary) ∧
  ∀ s : State, s.crc = 0xFFFF#16 → s.pend = [] → s.pins.rst = false →
    step s = .next
      (if s.pins.cmdValid = true then
        if s.pins.cmd.getLsbD 8 = false then
          { s with
            crc := crcByte 0xFFFF#16 (s.pins.cmd.extractLsb' 0 8), pend := escByte (s.pins.cmd.extractLsb' 0 8),
            inputs := s.inputs.tail }
        else { s with crc := 0xFFFF#16, pend := [0x00#8, 0x00#8, 0x7E#8], inputs := s.inputs.tail }
      else { s with inputs := s.inputs.tail })

/-- R27, R116: an edge of one encoder moves that encoder as it would move alone, and no other. -/
def Obligations.EncodersAreIndependent : Prop :=
  ∀ (ss : List State) (k : Nat) (s : State), ss[k]? = some s →
    ∃ t ts, step s = .next t ∧ stepAt k ss = .next ts ∧ ts[k]? = some t ∧ ts.length = ss.length ∧
      ∀ j, j ≠ k → ts[j]? = ss[j]?

/-! ## Invariants -/

/-- The state the machine starts from meets both invariants. `Inv` speaks of `crc` and `pend`, whose values R24 gives. The
clause `State.reset.WireInv` is no rule of the spec: it is the model's choice, since it holds because `State.reset.out` is
empty (log 3, DESIGN CHOICE). A reset leaves `out` alone (R121) and can end outside `WireInv`
(`OnlyResetBreaksAnEscapePair`, R125). -/
def Obligations.ResetMeetsTheInvariant : Prop := State.reset.Inv ∧ State.reset.WireInv

/-- Every edge keeps the invariant: at most five bytes pending, a pending delimiter last and only with the register already
at its initial value, every pending escape marker with its second byte behind it. -/
def Obligations.StepKeepsTheInvariant : Prop := ∀ s t : State, s.Inv → step s = .next t → t.Inv

/-- Without reset no escape pair is ever broken on the wire; a reset can break one (R125). -/
def Obligations.OnlyResetBreaksAnEscapePair : Prop :=
  (∀ s t : State, s.WireInv → s.pins.rst = false → step s = .next t → t.WireInv) ∧
  (∃ s t : State, s.WireInv ∧ s.Inv ∧ s.pins.rst = true ∧ step s = .next t ∧ ¬ t.WireInv)

/-! ## Runs -/

/-- R96: a run of `DATA` words alone. -/
def Obligations.DataRunAccumulates : Prop :=
  ∀ (c : Word16) (s : List Byte), txRun c (encodeAll (dataOps s)) = (crcRun c s, escape s)

/-- R96: every command stream splits in exactly one way into complete invocations and a tail of `DATA`. -/
def Obligations.CommandStreamSplitsUniquely : Prop :=
  ∀ (is : List Instr) (ps : List (List Byte)) (tail : List Byte),
    splitInvocations [] is = (ps, tail) ↔ is = invocationOps ps ++ dataOps tail

/-- R100: the commands of a payload emit its frame and leave the register as reset does; complete invocations emit their
frames one after another. -/
def Obligations.FrameCommandsBuildTheFrame : Prop :=
  (∀ p : List Byte, txRun 0xFFFF#16 (frameWords p) = (0xFFFF#16, buildFrame p)) ∧
  (∀ ps : List (List Byte), txRun 0xFFFF#16 (encodeAll (invocationOps ps)) = (0xFFFF#16, buildFrames ps))

/-- Every stream of command words, reserved words among them, from the reset value: the frames of its complete invocations,
then the escaped bytes of the open payload, whose partial checksum the register holds. -/
def Obligations.AnyStreamEmitsItsFrames : Prop :=
  ∀ ws : List CmdWord,
    let split := splitInvocations [] (ws.map decode)
    txRun 0xFFFF#16 ws = (crcRun 0xFFFF#16 split.2, buildFrames split.1 ++ escape split.2)

/-- R104: on every schedule without reset the beat level delivers or holds pending exactly what the transaction level emits
for the words accepted so far; so `out` is a prefix of it, and all of it whenever nothing is pending. -/
def Obligations.BeatLevelRefinesTransactionLevel : Prop :=
  ∀ (k : Nat) (s : State), noReset k s →
    ∃ t, runFor k s = .next t ∧ t.crc = (txRun s.crc (acceptedWords k s)).1 ∧
      t.out ++ t.pend = s.out ++ s.pend ++ (txRun s.crc (acceptedWords k s)).2 ∧
      t.out <+: s.out ++ s.pend ++ (txRun s.crc (acceptedWords k s)).2 ∧
      (t.pend = [] → t.out = s.out ++ s.pend ++ (txRun s.crc (acceptedWords k s)).2)

/-- R134: from a frame boundary, on every schedule without reset, `out` and `pend` grow by the frames of the complete
invocations accepted and the escaped bytes of the open payload; in a finished run `out` has grown by exactly the frames and
the state is a frame boundary again. -/
def Obligations.FinishedRunDeliversTheFrames : Prop :=
  ∀ (k : Nat) (s : State), s.frameBoundary → noReset k s →
    let split := splitInvocations [] ((acceptedWords k s).map decode)
    ∃ t, runFor k s = .next t ∧ t.crc = crcRun 0xFFFF#16 split.2 ∧
      t.out ++ t.pend = s.out ++ buildFrames split.1 ++ escape split.2 ∧
      (finishedRun (acceptedWords k s) t → t.out = s.out ++ buildFrames split.1 ∧ t.frameBoundary)

/-- R133: a payload of `n` bytes, its words served without a pause from a frame boundary, takes `n + 1` `ACCEPT` steps and
as many `EMIT` steps as its frame has bytes, delivers its frame and ends at a frame boundary; on every run the output grows
by one byte per `EMIT` step, and there are at least as many edges as `ACCEPT` and `EMIT` steps. -/
def Obligations.FrameTakesTheCountedSteps : Prop :=
  (∀ (p : List Byte) (s : State) (rest : List PortInput), s.frameBoundary →
    s.inputs = serve 0xFFFF#16 (frameWords p) ++ rest →
    let k := p.length + 1 + (buildFrame p).length
    runFor k s = .next { s with out := s.out ++ buildFrame p, inputs := rest } ∧
    acceptedWords k s = frameWords p ∧ (acceptedWords k s).length = p.length + 1 ∧
    emitCount k s = (buildFrame p).length) ∧
  (∀ p : List Byte, p.length + 3 ≤ (buildFrame p).length ∧ (buildFrame p).length ≤ 2 * p.length + 5) ∧
  (∀ (k : Nat) (s t : State), runFor k s = .next t → t.out.length = s.out.length + emitCount k s) ∧
  (∀ (k : Nat) (s : State), (acceptedWords k s).length + emitCount k s ≤ k)

/-- R104, fairness: a consumer that is ready at enough edges is given every pending byte. -/
def Obligations.ReadyConsumerGetsEveryPendingByte : Prop :=
  ∀ (k : Nat) (s : State), noReset k s → s.pend.length ≤ readyEdges k s →
    ∃ t, runFor k s = .next t ∧ s.out ++ s.pend <+: t.out

/-- R129, R102: a word the caller holds is the next word accepted, once the consumer has been ready often enough. -/
def Obligations.HeldWordIsAccepted : Prop :=
  ∀ (k : Nat) (s : State), noReset (k + 1) s → s.pins.cmdValid = true → callerHolds k s = true →
    s.pend.length ≤ readyEdges k s → (acceptedWords (k + 1) s).head? = some s.pins.cmd

/-- U9: a consumer that is never ready stalls the block; it holds its register and every pending byte, and no word is
accepted. -/
def Obligations.NeverReadyConsumerStallsTheBlock : Prop :=
  ∀ (k : Nat) (s : State), noReset k s → s.pend ≠ [] → (∀ p ∈ s.inputs.take k, p.outReady = false) →
    runFor k s = .next { s with inputs := s.inputs.drop k } ∧ acceptedWords k s = []

/-- R15, R22: `out` is append-only and nothing reads it: with another history the block does the same and appends the same
bytes. -/
def Obligations.OutputHistoryIsNeverRead : Prop :=
  ∀ (k : Nat) (s : State) (history : List Byte),
    ∃ t new, runFor k s = .next t ∧ t.out = s.out ++ new ∧
      runFor k { s with out := history } = .next { t with out := history ++ new }

/-- R23, R38: what is delivered between frame boundaries depends only on the command words accepted, not on the schedule and
not on what came before. -/
def Obligations.DeliveryDependsOnCommandsOnly : Prop :=
  ∀ (k k' : Nat) (s s' t t' : State), s.frameBoundary → s'.frameBoundary → noReset k s → noReset k' s' →
    acceptedWords k s = acceptedWords k' s' → runFor k s = .next t → runFor k' s' = .next t' →
    t.pend = [] → t'.pend = [] →
    t.crc = t'.crc ∧ ∃ new, t.out = s.out ++ new ∧ t'.out = s'.out ++ new
end

