-- ==== Sys2Proof/Laws/Crc.lean ====
section
/-! SUPPORT. Laws of the checksum engine's steps: the equations of its recursions, and the linearity over exclusive-or that
the equivalent forms rest on (R65). -/

namespace Sys2Proof.Machine

@[simp] theorem crcBitTimes_zero (c : Word16) : crcBitTimes 0 c = c := rfl

@[simp] theorem crcBitTimes_succ (n : Nat) (c : Word16) : crcBitTimes (n + 1) c = crcBitTimes n (crcBit c) := rfl

@[simp] theorem crcRun_nil (c : Word16) : crcRun c [] = c := rfl

@[simp] theorem crcRun_cons (c : Word16) (b : Byte) (s : List Byte) :
    crcRun c (b :: s) = crcRun (crcByte c b) s := rfl

@[simp] theorem msbRun_nil (r : Word16) : msbRun r [] = r := rfl

@[simp] theorem msbRun_cons (r : Word16) (b : Byte) (s : List Byte) :
    msbRun r (b :: s) = msbRun (msbByte r b) s := rfl

/-- The one-bit step bit by bit: every bit is the next higher one, with the polynomial's bits where the bit shifted out
is 1. -/
theorem crcBit_getLsbD (c : Word16) (i : Nat) :
    (crcBit c).getLsbD i = (c.getLsbD (i + 1) ^^ (c.getLsbD 0 && Config.crcPolyRev.getLsbD i)) := by
  unfold crcBit bitOut
  cases h : c.getLsbD 0 <;> simp [Nat.add_comm]

/-- `crc_bit` is linear over exclusive-or (R65). -/
theorem crcBit_xor_linear (a b : Word16) : crcBit (a ^^^ b) = crcBit a ^^^ crcBit b := by
  apply BitVec.eq_of_getLsbD_eq
  intro i _
  simp only [crcBit_getLsbD, BitVec.getLsbD_xor]
  cases a.getLsbD 0 <;> cases b.getLsbD 0 <;> cases a.getLsbD (i + 1) <;> cases b.getLsbD (i + 1) <;> simp

theorem crcBitTimes_xor (n : Nat) (a b : Word16) :
    crcBitTimes n (a ^^^ b) = crcBitTimes n a ^^^ crcBitTimes n b := by
  induction n generalizing a b with
  | zero => rfl
  | succ n ih => simp [crcBit_xor_linear, ih]

/-- A word is its high byte shifted into place, exclusive-or its low byte. -/
theorem word_eq_high_xor_low (c : Word16) : c = (zext16 (highByte c) <<< 8) ^^^ zext16 (lowByte c) := by
  apply BitVec.eq_of_getLsbD_eq
  intro i hi
  simp only [zext16, highByte, lowByte, BitVec.getLsbD_xor, BitVec.getLsbD_shiftLeft, BitVec.getLsbD_setWidth,
    BitVec.getLsbD_extractLsb']
  by_cases h : i < 8
  · simp [h, hi]
  · have h1 : i - 8 < 8 := by omega
    have h2 : 8 + (i - 8) = i := by omega
    have h3 : i - 8 < 16 := by omega
    simp [h, hi, h1, h2, h3]

/-- Eight one-bit steps move a high byte down: no bit is shifted out that would apply the polynomial. -/
theorem crcBitTimes_high (h : Byte) : crcBitTimes 8 (zext16 h <<< 8) = zext16 h := by
  revert h; decide +kernel

/-- Eight one-bit steps of a register: its high byte moved down, exclusive-or eight steps of its low byte. -/
theorem crcBitTimes_split (c : Word16) :
    crcBitTimes 8 c = zext16 (highByte c) ^^^ crcBitTimes 8 (zext16 (lowByte c)) := by
  conv => lhs; rw [word_eq_high_xor_low c]
  rw [crcBitTimes_xor, crcBitTimes_high]

end Sys2Proof.Machine
end

