-- ==== Sys2Proof/Laws/Escape.lean ====
section
/-! SUPPORT. Laws of the byte stuffer: the two shapes one byte's escape can have, the equations of the recursions, and the
reader's view of one symbol. Later proofs cite these and do not unfold `escByte`. -/

namespace Sys2Proof.Machine

theorem isReserved_iff (c : Byte) : isReserved c = true ↔ c = 0x7D#8 ∨ c = 0x7E#8 := by
  simp [isReserved, Config.esc, Config.flag]

theorem isReserved_eq_false_iff (c : Byte) : isReserved c = false ↔ c ≠ 0x7D#8 ∧ c ≠ 0x7E#8 := by
  rw [← Bool.not_eq_true, isReserved_iff, not_or]

/-- Everything `escByte` can do: two bytes for the escape marker, two for the delimiter, the byte itself for any other. -/
theorem escByte_cases (c : Byte) :
    (c = 0x7D#8 ∧ isReserved c = true ∧ escByte c = [0x7D#8, 0x5D#8]) ∨
    (c = 0x7E#8 ∧ isReserved c = true ∧ escByte c = [0x7D#8, 0x5E#8]) ∨
    (c ≠ 0x7D#8 ∧ c ≠ 0x7E#8 ∧ isReserved c = false ∧ escByte c = [c]) := by
  by_cases h1 : c = 0x7D#8
  · subst h1; exact .inl (by decide)
  · by_cases h2 : c = 0x7E#8
    · subst h2; exact .inr (.inl (by decide))
    · have h := (isReserved_eq_false_iff c).2 ⟨h1, h2⟩
      exact .inr (.inr ⟨h1, h2, h, by simp [escByte, h]⟩)

@[simp] theorem escape_nil : escape [] = [] := rfl

@[simp] theorem escape_cons (c : Byte) (s : List Byte) : escape (c :: s) = escByte c ++ escape s := rfl

@[simp] theorem countReserved_nil : countReserved [] = 0 := rfl

@[simp] theorem countReserved_cons (c : Byte) (s : List Byte) :
    countReserved (c :: s) = (if isReserved c then 1 else 0) + countReserved s := rfl

theorem escByte_length (c : Byte) : (escByte c).length = 1 + if isReserved c then 1 else 0 := by
  rcases escByte_cases c with ⟨-, hr, h⟩ | ⟨-, hr, h⟩ | ⟨-, -, hr, h⟩ <;> simp [h, hr]

/-- `unescape` of one byte's escape followed by anything: the byte, then what follows (R76). -/
theorem unescape_escByte_append (c : Byte) (r : List Byte) :
    unescape (escByte c ++ r) = (unescape r).map (c :: ·) := by
  rcases escByte_cases c with ⟨rfl, -, h⟩ | ⟨rfl, -, h⟩ | ⟨h1, -, -, h⟩
  · rw [h]; rfl
  · rw [h]; rfl
  · rw [h]
    cases r with
    | nil => simp [unescape, Config.esc, h1]
    | cons x r => simp [unescape, Config.esc, h1]

/-- The reader takes one byte's escape as that byte's symbol (R52, R75 (d)). -/
theorem readSymbols_escByte_append (c : Byte) (r : List Byte) :
    readSymbols (escByte c ++ r) = (readSymbols r).map (symbolOfByte c :: ·) := by
  rcases escByte_cases c with ⟨rfl, -, h⟩ | ⟨rfl, -, h⟩ | ⟨h1, h2, h3, h⟩
  · rw [h]; rfl
  · rw [h]; rfl
  · have hs : symbolOfByte c = .literal c := by simp [symbolOfByte, h3]
    rw [h, hs]
    cases r with
    | nil => simp [readSymbols, Config.esc, Config.flag, h1, h2]
    | cons x r => simp [readSymbols, Config.esc, Config.flag, h1, h2]

theorem symbolBytes_symbolOfByte (c : Byte) : symbolBytes (symbolOfByte c) = escByte c := by
  unfold symbolOfByte escByte
  split <;> rfl

end Sys2Proof.Machine
end

