-- ==== Sys2Proof/WellFormed.lean ====
section
/-! DEFINITION. Which command words a caller should send, and which operations are well formed. Every operation is: `DATA`
takes all 256 byte values (R44) and `END` has no operand (R45). The one thing that can be ill formed is a command WORD: the
reserved encodings 0x101 to 0x1FF, which the block accepts and decodes as `END` all the same (R46). -/

namespace Sys2Proof

/-- A word a caller should send: a `DATA` word, or the one canonical `END` word (R44, R45, R46). -/
def wordWellFormed (w : CmdWord) : Bool := !endBit w || byteField w == 0#8

/-- Every operation the type admits is well formed (R44, R45). -/
def Instr.wellFormed : Instr → Bool
  | .data _ => true
  | .endFrame => true

end Sys2Proof
end

