-- ==== Sys2Proof/Laws/PerInstr.lean ====
section
/-! SUPPORT. Statements made per operation. The family `TableWord` says that the word the encoder gives an operation is one a
caller should send and matches that operation's row of spec/opcode_table.json: match 0x000 or 0x100 under mask 0x100. -/

namespace Sys2Proof.Laws.TableWord

/-- The row's `match` value (R44, R45). -/
def rowMatch : Instr → CmdWord
  | .data _ => 0x000#9
  | .endFrame => 0x100#9

/-- The operation is well formed, and its word is well formed and matches the operation's row. -/
def Statement (i : Instr) : Prop :=
  i.wellFormed = true ∧ wordWellFormed (encode i) = true ∧ encode i &&& 0x100#9 = rowMatch i

theorem data (b : Byte) : Statement (.data b) := by
  refine ⟨rfl, ?_, ?_⟩ <;> revert b <;> decide +kernel

theorem endFrame : Statement .endFrame := by
  refine ⟨rfl, ?_, ?_⟩ <;> decide

end Sys2Proof.Laws.TableWord
end

