-- ==== Sys2Proof/Laws/State.lean ====
section
/-! SUPPORT. What each operation on the state does to each field, so that no later proof unfolds a record update. -/

namespace Sys2Proof.Machine.State

variable (s : State)

@[simp] theorem nextEdge_crc : s.nextEdge.crc = s.crc := rfl
@[simp] theorem nextEdge_pend : s.nextEdge.pend = s.pend := rfl
@[simp] theorem nextEdge_out : s.nextEdge.out = s.out := rfl
@[simp] theorem nextEdge_inputs : s.nextEdge.inputs = s.inputs.tail := rfl

@[simp] theorem applyReset_crc : s.applyReset.crc = Config.crcInit := rfl
@[simp] theorem applyReset_pend : s.applyReset.pend = [] := rfl
@[simp] theorem applyReset_out : s.applyReset.out = s.out := rfl
@[simp] theorem applyReset_inputs : s.applyReset.inputs = s.inputs := rfl

@[simp] theorem drain_crc : s.drain.crc = s.crc := rfl
@[simp] theorem drain_pend : s.drain.pend = [] := rfl
@[simp] theorem drain_out : s.drain.out = s.out ++ s.pend := rfl
@[simp] theorem drain_inputs : s.drain.inputs = s.inputs := rfl

@[simp] theorem presentWord_crc (w : CmdWord) : (s.presentWord w).crc = s.crc := rfl
@[simp] theorem presentWord_pend (w : CmdWord) : (s.presentWord w).pend = [] := rfl
@[simp] theorem presentWord_out (w : CmdWord) : (s.presentWord w).out = s.out ++ s.pend := rfl
@[simp] theorem presentWord_inputs (w : CmdWord) : (s.presentWord w).inputs = PortInput.offer w :: s.inputs := rfl

@[simp] theorem accept_out (e : Word16 × List Byte) : (s.accept e).out = s.out := by unfold accept; split <;> rfl
@[simp] theorem accept_inputs (e : Word16 × List Byte) : (s.accept e).inputs = s.inputs := by unfold accept; split <;> rfl

/-- `ACCEPT` with nothing pending (R102). -/
theorem accept_of_empty (e : Word16 × List Byte) {s : State} (h : s.pend = []) :
    s.accept e = { s with crc := e.1, pend := e.2 } := by simp [accept, h]

/-- A command met while bytes are pending waits (R102). -/
theorem accept_of_pending (e : Word16 × List Byte) {s : State} (h : s.pend ≠ []) : s.accept e = s := by
  simp [accept, h]

@[simp] theorem emit_crc : s.emit.crc = s.crc := by unfold emit; split <;> rfl
@[simp] theorem emit_inputs : s.emit.inputs = s.inputs := by unfold emit; split <;> rfl
@[simp] theorem emit_pend : s.emit.pend = s.pend.tail := by unfold emit; split <;> simp_all

/-- `EMIT` with a byte pending (R103). -/
theorem emit_of_cons {s : State} {b : Byte} {rest : List Byte} (h : s.pend = b :: rest) :
    s.emit = { s with out := s.out ++ [b], pend := rest } := by simp [emit, h]

/-- `EMIT` moves a byte from `pend` to `out` and loses none (R103). -/
@[simp] theorem emit_out_append_pend : s.emit.out ++ s.emit.pend = s.out ++ s.pend := by
  unfold emit; split <;> simp_all

end Sys2Proof.Machine.State
end

