-- ==== Sys2Proof/Laws/Step.lean ====
section
/-! SUPPORT. Said once: what an operation does, what an edge does, and how a run is taken apart. -/

namespace Sys2Proof.Machine

/-- Everything an operation does: its transaction-level effect becomes pending, or it waits (R102). -/
theorem exec_eq (i : Instr) (s : State) : exec i s = .next (s.accept (txExec s.crc i)) := by
  cases i <;> rfl

/-- The state one edge leads to. -/
def State.edge (s : State) : State :=
  match s.edgeEvent with
  | .reset => s.nextEdge.applyReset
  | .accept w => s.nextEdge.accept (txStep s.crc w)
  | .emit => s.nextEdge.emit
  | .hold => s.nextEdge

/-- An edge leads to one next state. -/
theorem step_eq (s : State) : step s = .next s.edge := by
  unfold step State.edge
  cases s.edgeEvent <;> simp [exec_eq, txStep]

/-- Everything an edge can do, with the pins that make it do so (R48, R110). -/
theorem edge_cases (s : State) :
    (s.pins.rst = true ∧ s.edgeEvent = .reset ∧ s.edge = s.nextEdge.applyReset) ∨
    (s.pins.rst = false ∧ s.pend = [] ∧ s.pins.cmdValid = true ∧ s.edgeEvent = .accept s.pins.cmd ∧
      s.edge = { s with crc := (txStep s.crc s.pins.cmd).1, pend := (txStep s.crc s.pins.cmd).2,
                        inputs := s.inputs.tail }) ∨
    (s.pins.rst = false ∧ s.pend ≠ [] ∧ s.pins.outReady = true ∧ s.edgeEvent = .emit ∧ s.edge = s.nextEdge.emit) ∨
    (s.pins.rst = false ∧ (s.pend = [] → s.pins.cmdValid = false) ∧ (s.pend ≠ [] → s.pins.outReady = false) ∧
      s.edgeEvent = .hold ∧ s.edge = s.nextEdge) := by
  cases hr : s.pins.rst
  · cases hp : s.pend with
    | nil =>
      cases hv : s.pins.cmdValid
      · have he : s.edgeEvent = .hold := by simp [State.edgeEvent, State.cmdReady, State.outValid, hr, hp, hv]
        exact .inr (.inr (.inr ⟨rfl, fun _ => rfl, fun h => absurd rfl h, he, by simp [State.edge, he]⟩))
      · have he : s.edgeEvent = .accept s.pins.cmd := by simp [State.edgeEvent, State.cmdReady, hr, hp, hv]
        refine .inr (.inl ⟨rfl, rfl, rfl, he, ?_⟩)
        simp only [State.edge, he]
        rw [State.accept_of_empty _ (by simp [hp])]
        simp [State.nextEdge]
    | cons b rest =>
      cases ho : s.pins.outReady
      · have he : s.edgeEvent = .hold := by simp [State.edgeEvent, State.cmdReady, State.outValid, hr, hp, ho]
        exact .inr (.inr (.inr ⟨rfl, (fun h => nomatch h), fun _ => rfl, he, by simp [State.edge, he]⟩))
      · have he : s.edgeEvent = .emit := by simp [State.edgeEvent, State.cmdReady, State.outValid, hr, hp, ho]
        exact .inr (.inr (.inl ⟨rfl, by simp, rfl, he, by simp [State.edge, he]⟩))
  · have he : s.edgeEvent = .reset := by simp [State.edgeEvent, hr]
    exact .inl ⟨rfl, he, by simp [State.edge, he]⟩

@[simp] theorem edge_inputs (s : State) : s.edge.inputs = s.inputs.tail := by
  unfold State.edge; split <;> simp

@[simp] theorem runFor_zero (s : State) : runFor 0 s = .next s := rfl

@[simp] theorem runFor_succ (k : Nat) (s : State) : runFor (k + 1) s = runFor k s.edge := by
  simp [runFor, step_eq]

theorem core_run_succ_of_next (M : Host.Core) (k : Nat) (s : M.State) {t : M.State} (h : M.step s = .next t) :
    M.run (k + 1) s = M.run k t := by
  simp [Host.Core.run, h]

/-- The run of the host's interface is `runFor`. -/
theorem core_run_eq_runFor (k : Nat) (s : State) : core.run k s = runFor k s := by
  induction k generalizing s with
  | zero => rfl
  | succ k ih =>
    rw [runFor_succ, ← ih]
    exact core_run_succ_of_next core k s (step_eq s)

/-- A run of `j + k` edges is `j` edges and then `k`. -/
theorem runFor_add (j k : Nat) {s t : State} (h : runFor j s = .next t) : runFor (j + k) s = runFor k t := by
  induction j generalizing s with
  | zero => cases h; simp
  | succ j ih => rw [Nat.add_right_comm, runFor_succ]; exact ih (by simpa using h)

@[simp] theorem edgeEvents_zero (s : State) : edgeEvents 0 s = [] := rfl

@[simp] theorem edgeEvents_succ (k : Nat) (s : State) : edgeEvents (k + 1) s = s.edgeEvent :: edgeEvents k s.edge := by
  simp [edgeEvents, step_eq]

@[simp] theorem acceptedWords_zero (s : State) : acceptedWords 0 s = [] := rfl

theorem acceptedWords_succ (k : Nat) (s : State) :
    acceptedWords (k + 1) s = s.edgeEvent.word?.toList ++ acceptedWords k s.edge := by
  simp only [acceptedWords, edgeEvents_succ, List.filterMap_cons]
  cases s.edgeEvent.word? <;> rfl

theorem acceptedWords_add (j k : Nat) {s t : State} (h : runFor j s = .next t) :
    acceptedWords (j + k) s = acceptedWords j s ++ acceptedWords k t := by
  induction j generalizing s with
  | zero => cases h; simp
  | succ j ih => rw [Nat.add_right_comm, acceptedWords_succ, acceptedWords_succ, ih (by simpa using h), List.append_assoc]

@[simp] theorem callerHolds_succ (k : Nat) (s : State) :
    callerHolds (k + 1) s = (s.keepsOffer && callerHolds k s.edge) := by
  simp [callerHolds, step_eq]

/-- The first edge of a run without reset, and the run after it. -/
theorem noReset_succ {k : Nat} {s : State} (h : noReset (k + 1) s) : s.pins.rst = false ∧ noReset k s.edge := by
  cases hi : s.inputs with
  | nil => exact ⟨by simp [State.pins, hi, PortInput.idle], by simp [noReset, hi]⟩
  | cons p rest =>
    refine ⟨by simpa [State.pins, hi] using h p (by simp [hi]), fun q hq => h q ?_⟩
    simp only [hi, List.take_succ_cons]
    exact List.mem_cons_of_mem _ (by simpa [hi] using hq)

@[simp] theorem txRun_nil (c : Word16) : txRun c [] = (c, []) := rfl

@[simp] theorem txRun_cons (c : Word16) (w : CmdWord) (ws : List CmdWord) :
    txRun c (w :: ws) =
      ((txRun (txStep c w).1 ws).1, (txStep c w).2 ++ (txRun (txStep c w).1 ws).2) := rfl

end Sys2Proof.Machine
end

