-- ==== Sys2Proof/Tests/Slice0.lean ====
section
/-! SUPPORT. The model's own tests: decoding of words written out from R43, the well-formedness check on ill-formed words, two
steps per operation with expected results from V17, a reset (P4), and one witness per obligation that has hypotheses. -/

namespace Sys2Proof.Tests

open Sys2Proof.Machine

/-! ## Decoding: words written out bit by bit from R43 (bit 8 `end`, bits 7:0 `byte`) -/

theorem test_decode_data : decode 0b0_0111_1110#9 = .data 0x7E#8 := by decide

theorem test_decode_end : decode 0b1_0000_0000#9 = .endFrame := by decide

/-- V18: the byte field of a reserved word is no data. -/
theorem test_decode_reserved_end : decode 0b1_0111_1110#9 = .endFrame := by decide

theorem test_decode_table_words :
    decodeTableWord 16 0x41 = some (.data 0x41#8) ∧ decodeTableWord 16 0x1A5 = some .endFrame := by decide

/-! ## Well-formedness: the one check refuses the reserved words (R46) -/

theorem test_wellFormed_refuses_reserved_words :
    wordWellFormed 0x101#9 = false ∧ wordWellFormed 0x17E#9 = false ∧ wordWellFormed 0x1FF#9 = false := by decide

theorem test_wellFormed_accepts_canonical_words :
    wordWellFormed 0x100#9 = true ∧ wordWellFormed 0x000#9 = true ∧ wordWellFormed 0x0FF#9 = true := by decide

/-! ## Steps (V17, P4) -/

/-- A state with the register at `c`, nothing pending and no history. -/
def withCrc (c : Word16) : State := { State.reset with crc := c }

/-- The register and the pending bytes a step leaves. -/
def after (o : Host.Outcome State Fault Refusal) : Option (Word16 × List Byte) :=
  match o with
  | .next t => some (t.crc, t.pend)
  | .fault _ => none
  | .refused _ => none

theorem test_data_escapes_a_reserved_byte :
    after (step ((withCrc 0xFFFF#16).withFetchWord 16 0x07D)) = some (0xA7E5#16, [0x7D#8, 0x5D#8]) := by decide

theorem test_data_passes_the_escape_code :
    after (step ((withCrc 0xFFFF#16).withFetchWord 16 0x05D)) = some (0x86E7#16, [0x5D#8]) := by decide

theorem test_end_low_byte_first_and_field_ignored :
    after (step ((withCrc 0xBF3C#16).withFetchWord 16 0x1A5)) = some (0xFFFF#16, [0xC3#8, 0x40#8, 0x7E#8]) := by decide

theorem test_end_escapes_both_checksum_bytes :
    after (step ((withCrc 0x8182#16).withFetchWord 16 0x100)) =
      some (0xFFFF#16, [0x7D#8, 0x5D#8, 0x7D#8, 0x5E#8, 0x7E#8]) := by decide

/-- An edge with `rst = 1` that also offers a word and has a ready consumer. -/
def resetEdge : PortInput := { rst := true, cmdValid := true, cmd := 0x041#9, outReady := true }

/-- P4, step 5: reset wins, discards `pend` and leaves `out`. -/
theorem test_reset_discards_pending_bytes :
    step { crc := 0x0764#16, pend := [0x5D#8], out := [0x41#8, 0x7D#8], inputs := [resetEdge] } =
      .next { crc := 0xFFFF#16, pend := [], out := [0x41#8, 0x7D#8], inputs := [] } := by rfl

/-! ## Witnesses: a state and operands that meet the hypotheses of each obligation that has some -/

/-- A frame boundary at which `DATA 0x41` is offered. -/
def offering : State := { State.reset with inputs := [PortInput.offer 0x041#9] }

/-- Two bytes pending, and a consumer that takes both. -/
def delivering : State :=
  { crc := 0xA7E5#16, pend := [0x7D#8, 0x5D#8], out := [], inputs := [PortInput.takeByte, PortInput.takeByte] }

/-- Two bytes pending, no ready consumer, and a caller that holds a word. -/
def stalled : State :=
  { delivering with inputs := [PortInput.offer 0x041#9, PortInput.offer 0x041#9] }

/-- One byte pending; the consumer takes it at the first edge while the caller holds a word at both. -/
def holding : State :=
  { delivering with
    pend := [0x5D#8], inputs := [{ PortInput.offer 0x041#9 with outReady := true }, PortInput.offer 0x041#9] }

/-- A frame boundary at which the empty payload is served: one `END`, three bytes taken. -/
def servedEmptyFrame : State := { State.reset with inputs := serve 0xFFFF#16 (frameWords []) }

theorem witness_ReservedEndWordsActAsEnd :
    0x100#9 ≤ 0x100#9 ∧ 0x100#9 ≤ 0x101#9 ∧ 0x100#9 ≤ 0x1FF#9 := by decide

theorem witness_CrcBitFollowsTheShiftRule : 0 < 15 ∧ 14 < 15 := by decide

theorem witness_BitsEnterLeastSignificantFirst : 0x7D#8 ∈ [0x7D#8] := by decide

theorem witness_EscapeOfOneByte :
    (0x7C#8 ≠ 0x7D#8 ∧ 0x7C#8 ≠ 0x7E#8) ∧ (0x7F#8 ≠ 0x7D#8 ∧ 0x7F#8 ≠ 0x7E#8) ∧
    (0xFD#8 ≠ 0x7D#8 ∧ 0xFD#8 ≠ 0x7E#8) ∧ 0 < 8 ∧ 7 < 8 := by decide

theorem witness_EscapeOfUnreservedDataIsUnchanged : countReserved [0x5D#8, 0x5E#8, 0x7C#8, 0x7F#8] = 0 := by decide

theorem witness_EscapeOutputAlphabet :
    (escape [0x7D#8])[0]? = some 0x7D#8 ∧ (escape [0x00#8, 0x7E#8])[1]? = some 0x7D#8 := by decide

theorem witness_UnescapeInvertsEscape :
    0x7E#8 ≠ 0x7D#8 ∧ unescape [0x7D#8, 0x5E#8] = some [0x7E#8] ∧ unescape [0x7E#8] = some [0x7E#8] := by decide

theorem witness_NoShortPayloadReachesTheLengthBound :
    (1 ≤ [0x7D#8].length ∧ [0x7D#8].length ≤ 10 ∧ ∀ b ∈ [0x7D#8], b = 0x7D#8 ∨ b = 0x7E#8) ∧
    (1 ≤ (List.replicate 10 0x7E#8).length ∧ (List.replicate 10 0x7E#8).length ≤ 10 ∧
      ∀ b ∈ List.replicate 10 0x7E#8, b = 0x7D#8 ∨ b = 0x7E#8) := by decide

theorem witness_FrameShapeOnTheWire :
    (assemble [0x7D#8])[0]? = some 0x7D#8 ∧ (assemble [0x19#8])[2]? = some 0x7D#8 := by decide +kernel

theorem witness_FrameRoundTrip :
    [0x00#8].getLast? ≠ some 0x7E#8 ∧ unescape [0x7D#8] = none ∧
    (unescape [0x00#8] = some [0x00#8] ∧ [0x00#8].length < 2) ∧
    unescape [0x41#8, 0xF5#8, 0xA3#8] = some ([0x41#8] ++ [0xF5#8, 0xA3#8]) := by decide

theorem witness_FramesDetermineTheirPayloads : assemble [] = assemble [] := rfl

theorem witness_DataTakesOnePayloadByte : offering.pend = [] := rfl

theorem witness_EndClosesTheFrame :
    State.reset.pend = [] ∧ (0x100#9).getLsbD 8 = true ∧ (0x1FF#9).getLsbD 8 = true := by decide

theorem witness_OperationWaitsWhileBytesArePending : delivering.pend ≠ [] := by decide

theorem witness_PinsDecideTheTransfer :
    delivering.outValid = true ∧ offering.inputs = PortInput.offer 0x041#9 :: [] ∧
    (stalled.inputs = PortInput.offer 0x041#9 :: [PortInput.offer 0x041#9] ∧
      ¬ ((PortInput.offer 0x041#9).cmdValid = true ∧ stalled.cmdReady = true)) := by decide

theorem witness_StepRunsTheDecodedWord :
    offering.pins.rst = false ∧ offering.pins.cmdValid = true ∧ offering.pend = [] := by decide

theorem witness_AcceptStep :
    (offering.pins.rst = false ∧ offering.pins.cmdValid = true ∧ offering.pend = []) ∧ stalled.pend ≠ [] := by decide

theorem witness_EmitStep :
    (delivering.pins.rst = false ∧ delivering.pins.outReady = true ∧ delivering.pend = 0x7D#8 :: [0x5D#8]) ∧
    (stalled.pins.rst = false ∧ stalled.pins.outReady = false ∧ stalled.pend ≠ [] ∧
      stalled.nextEdge.pins.rst = false) := by decide

theorem witness_IdleEdgeHoldsTheState :
    State.reset.pins.rst = false ∧ State.reset.pins.cmdValid = false ∧ State.reset.pend = [] := by decide

/-- Two edges of reset in the middle of a frame. -/
def resetting : State := { delivering with inputs := [resetEdge, resetEdge] }

theorem witness_ResetStep :
    resetting.pins.rst = true ∧ 0 + 1 ≤ resetting.inputs.length ∧ 1 + 1 ≤ resetting.inputs.length ∧
    (∀ p ∈ resetting.inputs.take (0 + 1), p.rst = true) ∧
    (∀ p ∈ resetting.inputs.take (1 + 1), p.rst = true) := by decide

/-- One witness for each of the three cases: no word, a `DATA` word, an `END` word. -/
theorem witness_FirstOperationAfterReset :
    (State.reset.crc = 0xFFFF#16 ∧ State.reset.pend = [] ∧ State.reset.pins.rst = false ∧
      State.reset.pins.cmdValid = false) ∧
    (offering.crc = 0xFFFF#16 ∧ offering.pend = [] ∧ offering.pins.rst = false ∧ offering.pins.cmdValid = true ∧
      offering.pins.cmd.getLsbD 8 = false) ∧
    (servedEmptyFrame.crc = 0xFFFF#16 ∧ servedEmptyFrame.pend = [] ∧ servedEmptyFrame.pins.rst = false ∧
      servedEmptyFrame.pins.cmdValid = true ∧ servedEmptyFrame.pins.cmd.getLsbD 8 = true) := by decide

theorem witness_EncodersAreIndependent : [delivering, offering][1]? = some offering := rfl

/-- The invariant is met with a delimiter pending, and the edge leads on. -/
theorem witness_StepKeepsTheInvariant :
    let s : State := { servedEmptyFrame with pend := [0x7D#8, 0x5D#8, 0x7D#8, 0x5E#8, 0x7E#8] }
    s.Inv ∧ step s = .next s.nextEdge := ⟨by decide, rfl⟩

theorem witness_OnlyResetBreaksAnEscapePair :
    delivering.WireInv ∧ delivering.pins.rst = false ∧ step delivering = .next delivering.nextEdge.emit :=
  ⟨by decide, rfl, rfl⟩

theorem witness_BeatLevelRefinesTransactionLevel : noReset 2 stalled ∧ noReset 2 delivering := by
  unfold noReset; decide

/-- Four edges: the `END` is accepted and its three bytes are taken. -/
theorem witness_FinishedRunDeliversTheFrames :
    servedEmptyFrame.frameBoundary ∧ noReset 4 servedEmptyFrame ∧
    finishedRun (acceptedWords 4 servedEmptyFrame) { State.reset with out := [0x00#8, 0x00#8, 0x7E#8] } ∧
    runFor 4 servedEmptyFrame = .next { State.reset with out := [0x00#8, 0x00#8, 0x7E#8] } :=
  ⟨by decide, by unfold noReset; decide, by unfold finishedRun; decide, rfl⟩

theorem witness_FrameTakesTheCountedSteps :
    servedEmptyFrame.frameBoundary ∧ servedEmptyFrame.inputs = serve 0xFFFF#16 (frameWords []) ++ [] ∧
    runFor 1 offering = .next { offering with crc := crcByte 0xFFFF#16 0x41#8, pend := [0x41#8], inputs := [] } :=
  ⟨by decide, by decide, rfl⟩

theorem witness_ReadyConsumerGetsEveryPendingByte :
    noReset 2 delivering ∧ delivering.pend.length ≤ readyEdges 2 delivering := by unfold noReset; decide

theorem witness_HeldWordIsAccepted :
    noReset 2 holding ∧ holding.pins.cmdValid = true ∧ callerHolds 1 holding = true ∧
    holding.pend.length ≤ readyEdges 1 holding := by unfold noReset; decide

theorem witness_NeverReadyConsumerStallsTheBlock :
    noReset 2 stalled ∧ stalled.pend ≠ [] ∧ ∀ p ∈ stalled.inputs.take 2, p.outReady = false := by
  unfold noReset; decide

/-- Two schedules of the same command: served at once, and after an idle edge with another history. -/
theorem witness_DeliveryDependsOnCommandsOnly :
    let s := servedEmptyFrame
    let s' : State := { servedEmptyFrame with out := [0x55#8], inputs := PortInput.idle :: servedEmptyFrame.inputs }
    s.frameBoundary ∧ s'.frameBoundary ∧ noReset 4 s ∧ noReset 5 s' ∧ acceptedWords 4 s = acceptedWords 5 s' ∧
    runFor 4 s = .next { State.reset with out := [0x00#8, 0x00#8, 0x7E#8] } ∧
    runFor 5 s' = .next { State.reset with out := [0x55#8, 0x00#8, 0x00#8, 0x7E#8] } :=
  ⟨by decide, by decide, by unfold noReset; decide, by unfold noReset; decide, by decide, rfl, rfl⟩

end Sys2Proof.Tests
end

/-! SUPPORT. The bytes an operation makes pending: their number, where the delimiter can stand, and that every escape
marker keeps its second byte (R75, R94, R95). -/

namespace Sys2Proof.Machine

@[simp] theorem escPaired_nil : escPaired [] = true := rfl

theorem escPaired_cons_iff (c : Byte) (r : List Byte) :
    escPaired (c :: r) = true ↔
      (c = Config.esc → r.head? = some 0x5D#8 ∨ r.head? = some 0x5E#8) ∧ escPaired r = true := by
  simp [escPaired, or_assoc, imp_iff_not_or]

/-- Taking the first byte away breaks no later pair. -/
theorem escPaired_tail {l : List Byte} (h : escPaired l = true) : escPaired l.tail = true := by
  cases l with
  | nil => rfl
  | cons c r => exact ((escPaired_cons_iff c r).1 h).2

/-- One byte's escape is paired by itself: what follows it decides alone (R75 (b), (c)). -/
@[simp] theorem escPaired_escByte_append (c : Byte) (r : List Byte) : escPaired (escByte c ++ r) = escPaired r := by
  rcases escByte_cases c with ⟨-, -, h⟩ | ⟨-, -, h⟩ | ⟨hesc, -, -, h⟩
  · simp [h, escPaired, Config.esc]
  · simp [h, escPaired, Config.esc]
  · simp [h, escPaired, Config.esc, hesc]

@[simp] theorem escPaired_escByte (c : Byte) : escPaired (escByte c) = true := by
  simpa using escPaired_escByte_append c []

/-- No byte's escape holds the delimiter (R75 (a)). -/
@[simp] theorem flag_notMem_escByte (c : Byte) : Config.flag ∉ escByte c := by
  rcases escByte_cases c with ⟨-, -, h⟩ | ⟨-, -, h⟩ | ⟨-, hflag, -, h⟩
  · simp [h, Config.flag]
  · simp [h, Config.flag]
  · simpa [h, Config.flag] using hflag.symm

theorem escByte_length_le (c : Byte) : (escByte c).length ≤ 2 := by
  rw [escByte_length]; split <;> decide

theorem flagOnlyLast_of_notMem {l : List Byte} (h : Config.flag ∉ l) : flagOnlyLast l :=
  fun hmem => h (List.mem_of_mem_dropLast hmem)

theorem flagOnlyLast_tail {l : List Byte} (h : flagOnlyLast l) : flagOnlyLast l.tail := by
  unfold flagOnlyLast
  rw [← List.tail_dropLast]
  exact fun hmem => h (List.mem_of_mem_tail hmem)

/-- No operation emits more than `PEND_MAX` bytes (R14, R95). -/
theorem txExec_length_le (c : Word16) (i : Instr) : (txExec c i).2.length ≤ Config.pendMax := by
  cases i with
  | data b => exact (escByte_length_le b).trans (by decide)
  | endFrame =>
    have hlo := escByte_length_le (lowByte (checksumOfCrc c))
    have hhi := escByte_length_le (highByte (checksumOfCrc c))
    simp only [txExec, endEffect, List.length_append, List.length_singleton, Config.pendMax]
    omega

/-- An emitted delimiter is the operation's last byte (R94). -/
theorem txExec_flagOnlyLast (c : Word16) (i : Instr) : flagOnlyLast (txExec c i).2 := by
  cases i with
  | data b => exact flagOnlyLast_of_notMem (flag_notMem_escByte b)
  | endFrame => simp [flagOnlyLast, txExec, endEffect]

/-- Only `END` emits a delimiter, and it leaves the register at its initial value (R94, R97). -/
theorem txExec_crc_of_flag_mem {c : Word16} {i : Instr} (h : Config.flag ∈ (txExec c i).2) :
    (txExec c i).1 = Config.crcInit := by
  cases i with
  | data b => exact absurd h (flag_notMem_escByte b)
  | endFrame => rfl

/-- Every emitted escape marker comes with its second byte (R75). -/
theorem txExec_escPaired (c : Word16) (i : Instr) : escPaired (txExec c i).2 = true := by
  cases i with
  | data b => exact escPaired_escByte b
  | endFrame => simp only [txExec, endEffect, List.append_assoc, escPaired_escByte_append]; rfl

end Sys2Proof.Machine

/-! The invariant of register and queue, through each thing an edge can do. -/

namespace Sys2Proof.Machine

/-- With nothing pending the invariant asks for nothing. -/
theorem inv_of_pend_eq_nil {s : State} (h : s.pend = []) : s.Inv := by
  simp [State.Inv, flagOnlyLast, h]

/-- What an accepted operation leaves in register and queue meets the invariant, whatever stood there before. -/
theorem inv_of_accept (c : Word16) (i : Instr) (s : State) :
    State.Inv { s with crc := (txExec c i).1, pend := (txExec c i).2 } :=
  ⟨txExec_length_le c i, txExec_flagOnlyLast c i, txExec_crc_of_flag_mem, txExec_escPaired c i⟩

/-- Delivering the head of the queue keeps the invariant. -/
theorem emit_inv {s : State} (h : s.Inv) : s.emit.Inv := by
  obtain ⟨hlen, hlast, hcrc, hpaired⟩ := h
  unfold State.Inv
  rw [State.emit_pend, State.emit_crc]
  refine ⟨?_, flagOnlyLast_tail hlast, fun hmem => hcrc (List.mem_of_mem_tail hmem), escPaired_tail hpaired⟩
  rw [List.length_tail]
  omega

theorem nextEdge_inv {s : State} (h : s.Inv) : s.nextEdge.Inv := h

theorem edge_inv {s : State} (h : s.Inv) : s.edge.Inv := by
  rcases edge_cases s with ⟨-, -, hedge⟩ | ⟨-, -, -, -, hedge⟩ | ⟨-, -, -, -, hedge⟩ | ⟨-, -, -, -, hedge⟩
  · rw [hedge]; exact inv_of_pend_eq_nil (State.applyReset_pend _)
  · rw [hedge]; exact inv_of_accept s.crc (decode s.pins.cmd) { s with inputs := s.inputs.tail }
  · rw [hedge]; exact emit_inv (nextEdge_inv h)
  · rw [hedge]; exact nextEdge_inv h

/-- Settles O45: a step leads to the state `edge` names, and each of the four edges keeps the invariant. -/
theorem stepKeepsTheInvariant : Obligations.StepKeepsTheInvariant := by
  intro s t hinv hstep
  rw [step_eq] at hstep
  cases hstep
  exact edge_inv hinv

/-- Settles O41: each clause reads a field of `State.reset` (R24). -/
theorem resetValues : Obligations.ResetValues := ⟨rfl, rfl, rfl, rfl⟩

/-- Settles O44: nothing is pending after reset, and the model's history is empty there. -/
theorem resetMeetsTheInvariant : Obligations.ResetMeetsTheInvariant := ⟨inv_of_pend_eq_nil rfl, rfl⟩

end Sys2Proof.Machine

/-! The observation `out`: what an edge appends to it, and that nothing else depends on it (R15). -/

namespace Sys2Proof.Machine

/-- The byte an edge delivers to the consumer, if it delivers one (R103). -/
def State.delivered (s : State) : List Byte :=
  match s.edgeEvent with
  | .reset => []
  | .accept _ => []
  | .emit => s.pend.take 1
  | .hold => []

/-- `EMIT` at another history: the head of the queue is appended to that one. -/
theorem emit_withHistory (s : State) (history : List Byte) :
    State.emit { s with out := history } = { s.emit with out := history ++ s.pend.take 1 } := by
  obtain ⟨crc, pend, out, inputs⟩ := s
  cases pend <;> simp [State.emit]

/-- Whether a command is accepted, and what it does, is the same at another history. -/
theorem accept_withHistory (effect : Word16 × List Byte) (s : State) (history : List Byte) :
    State.accept effect { s with out := history } = { s.accept effect with out := history } := by
  unfold State.accept; cases s.pend.isEmpty <;> rfl

/-- An edge at another history does the same and appends the same bytes to that one. -/
theorem edge_withHistory (s : State) (history : List Byte) :
    State.edge { s with out := history } = { s.edge with out := history ++ s.delivered } := by
  have hevent : State.edgeEvent { s with out := history } = s.edgeEvent := rfl
  unfold State.edge State.delivered
  rw [hevent]
  cases s.edgeEvent with
  | reset => simp [State.nextEdge, State.applyReset]
  | accept w =>
    simp only [List.append_nil]
    exact accept_withHistory (txStep s.crc w) s.nextEdge history
  | emit => exact emit_withHistory s.nextEdge history
  | hold => simp [State.nextEdge]

/-- An edge appends to `out` what it delivers, and nothing else. -/
theorem edge_out (s : State) : s.edge.out = s.out ++ s.delivered :=
  congrArg State.out (edge_withHistory s s.out)

/-- Settles O57, by induction on the number of edges; one edge is `edge_withHistory`. -/
theorem outputHistoryIsNeverRead : Obligations.OutputHistoryIsNeverRead := by
  intro k
  induction k with
  | zero => exact fun s history => ⟨s, [], rfl, by simp, by simp⟩
  | succ k ih =>
    intro s history
    obtain ⟨t, new, hrun, hout, hhistory⟩ := ih s.edge (history ++ s.delivered)
    refine ⟨t, s.delivered ++ new, by simpa using hrun, by simp [hout, edge_out], ?_⟩
    rw [runFor_succ, edge_withHistory, hhistory, List.append_assoc]

end Sys2Proof.Machine

/-! Runs without reset against the transaction level (R104): register, and bytes delivered or pending. -/

namespace Sys2Proof.Machine

theorem txRun_append (c : Word16) (ws vs : List CmdWord) :
    txRun c (ws ++ vs) =
      ((txRun (txRun c ws).1 vs).1, (txRun c ws).2 ++ (txRun (txRun c ws).1 vs).2) := by
  induction ws generalizing c with
  | nil => simp
  | cons w ws ih => simp [ih]

/-- An edge without reset runs the word it accepts, if any: the register is the transaction level's, and `out` with
`pend` behind it grows by that word's bytes. -/
theorem edge_refines_txRun {s : State} (hrst : s.pins.rst = false) :
    s.edge.crc = (txRun s.crc s.edgeEvent.word?.toList).1 ∧
    s.edge.out ++ s.edge.pend = s.out ++ s.pend ++ (txRun s.crc s.edgeEvent.word?.toList).2 := by
  rcases edge_cases s with ⟨hreset, -, -⟩ | ⟨-, hpend, -, hevent, hedge⟩ | ⟨-, -, -, hevent, hedge⟩ |
    ⟨-, -, -, hevent, hedge⟩
  · simp [hrst] at hreset
  · simp [hevent, hedge, hpend, EdgeEvent.word?]
  · rw [hevent, hedge, State.emit_out_append_pend]
    simp [EdgeEvent.word?]
  · simp [hevent, hedge, EdgeEvent.word?]

/-- A run without reset runs the words it accepts. -/
theorem runFor_refines_txRun {k : Nat} {s : State} (h : noReset k s) :
    ∃ t, runFor k s = .next t ∧ t.crc = (txRun s.crc (acceptedWords k s)).1 ∧
      t.out ++ t.pend = s.out ++ s.pend ++ (txRun s.crc (acceptedWords k s)).2 := by
  induction k generalizing s with
  | zero => exact ⟨s, rfl, by simp, by simp⟩
  | succ k ih =>
    obtain ⟨hrst, hrest⟩ := noReset_succ h
    obtain ⟨hcrc, hbytes⟩ := edge_refines_txRun hrst
    obtain ⟨t, hrun, htcrc, htbytes⟩ := ih hrest
    rw [acceptedWords_succ, txRun_append, ← hcrc]
    exact ⟨t, by simpa using hrun, htcrc, by rw [htbytes, hbytes, List.append_assoc]⟩

/-- From a frame boundary, a run without reset that leaves nothing pending has delivered what the transaction level
emits from the initial register for the words accepted. -/
theorem runFor_frameBoundary_delivers {k : Nat} {s t : State} (hs : s.frameBoundary) (h : noReset k s)
    (hrun : runFor k s = .next t) (hpend : t.pend = []) :
    t.crc = (txRun Config.crcInit (acceptedWords k s)).1 ∧
      t.out = s.out ++ (txRun Config.crcInit (acceptedWords k s)).2 := by
  obtain ⟨hcrc, hspend⟩ := hs
  obtain ⟨t', hrun', htcrc, htbytes⟩ := runFor_refines_txRun h
  rw [hrun] at hrun'
  cases hrun'
  rw [hcrc] at htcrc htbytes
  exact ⟨htcrc, by simpa [hpend, hspend] using htbytes⟩

/-- Settles O58: both runs deliver what the transaction level emits for the one list of words. -/
theorem deliveryDependsOnCommandsOnly : Obligations.DeliveryDependsOnCommandsOnly := by
  intro k k' s s' t t' hs hs' hnoReset hnoReset' hwords hrun hrun' hpend hpend'
  obtain ⟨hcrc, hout⟩ := runFor_frameBoundary_delivers hs hnoReset hrun hpend
  obtain ⟨hcrc', hout'⟩ := runFor_frameBoundary_delivers hs' hnoReset' hrun' hpend'
  rw [← hwords] at hcrc' hout'
  exact ⟨hcrc.trans hcrc'.symm, _, hout, hout'⟩

end Sys2Proof.Machine

/-! Several encoders (R27, R116). -/

namespace Sys2Proof.Machine

/-- An edge of encoder `k` replaces that encoder by the state its own edge leads to. -/
theorem stepAt_eq {ss : List State} {k : Nat} {s : State} (h : ss[k]? = some s) :
    stepAt k ss = .next (ss.set k s.edge) := by
  simp [stepAt, h, step_eq]

/-- Settles O43: `stepAt` is one `List.set`. -/
theorem encodersAreIndependent : Obligations.EncodersAreIndependent := by
  intro ss k s h
  have hk : k < ss.length := (List.getElem?_eq_some_iff.1 h).1
  exact ⟨s.edge, ss.set k s.edge, step_eq s, stepAt_eq h, List.getElem?_set_self hk, List.length_set,
    fun j hj => List.getElem?_set_ne hj.symm⟩

end Sys2Proof.Machine

/-! The table-driven byte step (R30, R63). -/

namespace Sys2Proof.Machine

/-- The one fact about the printed values: each of the 256 entries is what R30's formula gives at its index. -/
theorem tableRead_eq_crcBitTimes (i : Byte) : tableRead i = crcBitTimes 8 (zext16 i) := by
  revert i; decide +kernel

/-- The high byte, moved down, is the word shifted right by eight. -/
theorem zext16_highByte (c : Word16) : zext16 (highByte c) = c >>> 8 := by
  apply BitVec.eq_of_getLsbD_eq
  intro i hi
  simp only [zext16, highByte, BitVec.getLsbD_setWidth, BitVec.getLsbD_extractLsb', BitVec.getLsbD_ushiftRight]
  by_cases h : i < 8
  · simp [h, hi]
  · simp [h, BitVec.getLsbD_of_ge c (8 + i) (by omega)]

/-- A byte has no bits above the low eight. -/
@[simp] theorem zext16_ushiftRight_eight (b : Byte) : zext16 b >>> 8 = 0#16 := by
  apply BitVec.eq_of_getLsbD_eq
  intro i _
  simp [zext16]

/-- The table-driven byte step is the byte step: the entry at the low byte stands for eight steps of it, and the high
byte only moves down. -/
theorem crcByteTable_eq_crcByte (c : Word16) (b : Byte) : crcByteTable c b = crcByte c b := by
  have hhigh : zext16 (highByte (c ^^^ zext16 b)) = c >>> 8 := by
    rw [zext16_highByte, BitVec.ushiftRight_xor_distrib, zext16_ushiftRight_eight, BitVec.xor_zero]
  rw [crcByteTable, crcByte, tableRead_eq_crcBitTimes, crcBitTimes_split (c ^^^ zext16 b), hhigh]

/-- The byte step of the engine is the same with and without the table (U1). -/
theorem crcByteBuilt_eq_crcByte (useTable : Bool) (c : Word16) (b : Byte) :
    crcByteBuilt useTable c b = crcByte c b := by
  cases useTable with
  | false => rfl
  | true => exact crcByteTable_eq_crcByte c b

/-- Eight printed parts of 32 entries (R63). -/
theorem tableRom_length : tableRom.length = 256 := by
  simp only [tableRom, List.length_append]
  rfl

/-- Settles O10: the entries are checked against their formula, and the table step follows by linearity
(`crcBitTimes_split`). The spot values are read off the formula. -/
theorem tableFormIsEquivalent : Obligations.TableFormIsEquivalent :=
  ⟨tableRom_length, tableRead_eq_crcBitTimes, fun c b => (crcByteTable_eq_crcByte c b).symm, crcByteBuilt_eq_crcByte,
    (tableRead_eq_crcBitTimes _).trans rfl, (tableRead_eq_crcBitTimes _).trans rfl,
    (tableRead_eq_crcBitTimes _).trans rfl, (tableRead_eq_crcBitTimes _).trans rfl⟩

end Sys2Proof.Machine

/-! The byte step bit by bit: the data bits meet the register one at a time, least significant first (R32, R58). -/

namespace Sys2Proof.Machine

/-- One step of a register that already holds the data `v`: bit 0 of `v` is fed to the register, the rest of `v` moves
down and waits. -/
theorem crcBit_xor_eq_feedBit (c v : Word16) : crcBit (c ^^^ v) = crcFeedBit c (v.getLsbD 0) ^^^ (v >>> 1) := by
  unfold crcBit crcFeedBit bitOut
  rw [BitVec.getLsbD_xor, BitVec.ushiftRight_xor_distrib]
  split
  · ac_rfl
  · rfl

/-- Data exclusive-ored in beforehand is data fed bit by bit, bit 0 first; after `n` steps `v >>> n` still waits. -/
theorem crcBitTimes_xor_eq_foldl (n : Nat) (c v : Word16) :
    crcBitTimes n (c ^^^ v) = ((List.range n).map v.getLsbD).foldl crcFeedBit c ^^^ (v >>> n) := by
  induction n generalizing c v with
  | zero => simp
  | succ n ih =>
    have hbits : (List.range (n + 1)).map v.getLsbD = v.getLsbD 0 :: (List.range n).map (v >>> 1).getLsbD := by
      simp [List.range_succ_eq_map, Nat.add_comm]
    rw [crcBitTimes_succ, crcBit_xor_eq_feedBit, ih, hbits, List.foldl_cons, ← BitVec.shiftRight_add,
      Nat.add_comm 1 n]

theorem bitsLsbFirst_eq_map (b : Byte) : bitsLsbFirst b = (List.range 8).map b.getLsbD := rfl

@[simp] theorem bitsLsbFirst_length (b : Byte) : (bitsLsbFirst b).length = 8 := rfl

/-- Widening a byte adds no bit among the eight that are fed. -/
theorem bitsLsbFirst_eq_map_zext16 (b : Byte) : bitsLsbFirst b = (List.range 8).map (zext16 b).getLsbD := by
  rw [bitsLsbFirst_eq_map]
  refine List.map_congr_left fun i hi => ?_
  have hi16 : i < 16 := (List.mem_range.1 hi).trans (by decide)
  simp [zext16, hi16]

/-- The byte step feeds the byte's eight bits, bit 0 first (R32, R58). -/
theorem crcByte_eq_foldl_crcFeedBit (c : Word16) (b : Byte) : crcByte c b = (bitsLsbFirst b).foldl crcFeedBit c := by
  rw [crcByte, crcBitTimes_xor_eq_foldl, ← bitsLsbFirst_eq_map_zext16, zext16_ushiftRight_eight, BitVec.xor_zero]

/-- The run feeds the bits of its bytes in order. -/
theorem crcRun_eq_foldl_crcFeedBit (c : Word16) (s : List Byte) :
    crcRun c s = (s.flatMap bitsLsbFirst).foldl crcFeedBit c := by
  induction s generalizing c with
  | nil => rfl
  | cons b s ih => rw [crcRun_cons, ih, crcByte_eq_foldl_crcFeedBit, List.flatMap_cons, List.foldl_append]

theorem flatMap_bitsLsbFirst_length (s : List Byte) : (s.flatMap bitsLsbFirst).length = 8 * s.length := by
  simp [List.length_flatMap, Nat.mul_comm]

/-- Settles O13: the byte step feeds eight bits, and the run is an induction over the bytes. -/
theorem bitsEnterLeastSignificantFirst : Obligations.BitsEnterLeastSignificantFirst :=
  fun c s => ⟨crcRun_eq_foldl_crcFeedBit c s, flatMap_bitsLsbFirst_length s, fun b _ => bitsLsbFirst_eq_map b⟩

end Sys2Proof.Machine

/-! Command words (R43 to R47): the two readings of a word, and where decoder and encoder agree. -/

namespace Sys2Proof

theorem decode_of_endBit_false {w : CmdWord} (h : endBit w = false) : decode w = .data (byteField w) := by
  simp [decode, h]

theorem decode_of_endBit_true {w : CmdWord} (h : endBit w = true) : decode w = .endFrame := by
  simp [decode, h]

/-- Bit 8 is the sign bit of the nine: it is set exactly from 0x100 on. -/
theorem endBit_iff (w : CmdWord) : endBit w = true ↔ 0x100#9 ≤ w := by
  have hmsb : endBit w = w.msb := rfl
  rw [hmsb, BitVec.msb_eq_true_iff_two_mul_ge]
  bv_omega

theorem endBit_eq_false_iff (w : CmdWord) : endBit w = false ↔ w < 0x100#9 := by
  rw [← Bool.not_eq_true, endBit_iff, BitVec.not_le]

/-- A widened byte is a word below 0x100. -/
theorem setWidth_lt_endWord (b : Byte) : b.setWidth 9 < 0x100#9 := by
  bv_omega

/-- The byte field as a number: the word without its bit 8. -/
theorem byteField_toNat (w : CmdWord) : (byteField w).toNat = w.toNat % 256 := by
  simp [byteField, BitVec.extractLsb'_toNat]

theorem byteField_setWidth (b : Byte) : byteField (b.setWidth 9) = b := by
  apply BitVec.eq_of_toNat_eq
  rw [byteField_toNat, BitVec.toNat_setWidth]
  omega

/-- Widening the byte field restores a word whose `end` bit is 0. -/
theorem setWidth_byteField {w : CmdWord} (h : w < 0x100#9) : (byteField w).setWidth 9 = w := by
  have hlt : w.toNat < 256 := h
  apply BitVec.eq_of_toNat_eq
  rw [BitVec.toNat_setWidth, byteField_toNat]
  omega

/-- Decoding undoes encoding (R47). -/
@[simp] theorem decode_encode (i : Instr) : decode (encode i) = i := by
  cases i with
  | data b =>
    have hbit : endBit (b.setWidth 9) = false := (endBit_eq_false_iff _).2 (setWidth_lt_endWord b)
    rw [encode, decode_of_endBit_false hbit, byteField_setWidth]
  | endFrame => exact decode_of_endBit_true rfl

/-- Encoding undoes decoding on the `DATA` words and on 0x100, and on no reserved word (R46, R47). -/
theorem encode_decode_iff (w : CmdWord) : encode (decode w) = w ↔ w < 0x101#9 := by
  cases hbit : endBit w with
  | false =>
    have hlt : w < 0x100#9 := (endBit_eq_false_iff w).1 hbit
    rw [decode_of_endBit_false hbit, encode, setWidth_byteField hlt, eq_self, true_iff]
    exact BitVec.lt_trans hlt (by decide)
  | true =>
    have hge : 0x100#9 ≤ w := (endBit_iff w).1 hbit
    rw [decode_of_endBit_true hbit, encode]
    bv_omega

/-- Settles O2: the two sides of the `end` bit, each by its own reading of the word. -/
theorem decodeAndEncodeAgree : Obligations.DecodeAndEncodeAgree :=
  ⟨fun _ => rfl, fun _ => rfl, rfl, decode_encode, encode_decode_iff⟩

/-- Settles O1: each word has its `end` bit and its byte field in plain sight (V18). -/
theorem sampleCommandWordsDecode : Obligations.SampleCommandWordsDecode :=
  ⟨decode_of_endBit_false rfl, decode_of_endBit_false rfl, decode_of_endBit_false rfl, decode_of_endBit_true rfl,
    decode_of_endBit_true rfl, decode_of_endBit_true rfl, decode_of_endBit_true rfl⟩

end Sys2Proof

/-! Pins and transfers (R48, R110): the output pins, the event of an edge, and the pin `cmd`, which only an accepting edge
reads. -/

namespace Sys2Proof.Machine

theorem cmdReady_iff (s : State) : s.cmdReady = true ↔ s.pins.rst = false ∧ s.pend = [] := by
  simp [State.cmdReady]

theorem outValid_iff (s : State) : s.outValid = true ↔ s.pins.rst = false ∧ s.pend ≠ [] := by
  simp [State.outValid]

theorem outData_of_outValid {s : State} (h : s.outValid = true) : s.outData = s.pend.head? := by
  simp [State.outData, h]

/-- The two handshakes exclude each other: one needs `pend` empty, the other a byte there. -/
theorem not_cmdReady_and_outValid (s : State) : ¬ (s.cmdReady = true ∧ s.outValid = true) := by
  rw [cmdReady_iff, outValid_iff]
  rintro ⟨⟨-, hempty⟩, -, hpending⟩
  exact hpending hempty

theorem edgeEvent_eq_reset_iff (s : State) : s.edgeEvent = .reset ↔ s.pins.rst = true := by
  rcases edge_cases s with ⟨hrst, he, -⟩ | ⟨hrst, -, -, he, -⟩ | ⟨hrst, -, -, he, -⟩ | ⟨hrst, -, -, he, -⟩ <;>
    simp [hrst, he]

theorem edgeEvent_eq_accept_iff (s : State) (w : CmdWord) :
    s.edgeEvent = .accept w ↔ s.pins.cmdValid = true ∧ s.cmdReady = true ∧ s.pins.cmd = w := by
  rw [cmdReady_iff]
  rcases edge_cases s with ⟨hrst, he, -⟩ | ⟨hrst, hpend, hvalid, he, -⟩ | ⟨-, hpend, -, he, -⟩ |
    ⟨-, hidle, -, he, -⟩
  · simp [he, hrst]
  · simp [he, hrst, hpend, hvalid]
  · simp [he, hpend]
  · simp only [he, reduceCtorEq, false_iff]
    rintro ⟨hvalid, ⟨-, hpend⟩, -⟩
    simp [hidle hpend] at hvalid

theorem edgeEvent_eq_emit_iff (s : State) :
    s.edgeEvent = .emit ↔ s.pins.outReady = true ∧ s.outValid = true := by
  rw [outValid_iff]
  rcases edge_cases s with ⟨hrst, he, -⟩ | ⟨-, hpend, -, he, -⟩ | ⟨hrst, hpend, hready, he, -⟩ |
    ⟨-, -, hstalled, he, -⟩
  · simp [he, hrst]
  · simp [he, hpend]
  · simp [he, hrst, hpend, hready]
  · simp only [he, reduceCtorEq, false_iff]
    rintro ⟨hready, -, hpend⟩
    simp [hstalled hpend] at hready

/-- An edge as its pins decide it: reset first, then a command, then a byte (R48, R110). -/
theorem edge_eq_ite (s : State) :
    s.edge =
      if s.pins.rst then s.nextEdge.applyReset
      else if s.pins.cmdValid && s.cmdReady then s.nextEdge.accept (txStep s.crc s.pins.cmd)
      else if s.pins.outReady && s.outValid then s.nextEdge.emit
      else s.nextEdge := by
  unfold State.edge State.edgeEvent
  split_ifs <;> rfl

/-- The state `s` with `p` driven at the coming edge, `w` on its `cmd` pins, and `rest` after it. -/
abbrev State.withCmd (s : State) (p : PortInput) (rest : List PortInput) (w : CmdWord) : State :=
  { s with inputs := { p with cmd := w } :: rest }

theorem withCmd_cmdReady (s : State) (p : PortInput) (rest : List PortInput) (w v : CmdWord) :
    (s.withCmd p rest w).cmdReady = (s.withCmd p rest v).cmdReady := rfl

/-- An edge reads `cmd` only where it accepts the word, and then only through the word's effect. -/
theorem step_withCmd_congr (s : State) (p : PortInput) (rest : List PortInput) {w v : CmdWord}
    (h : p.cmdValid = true → (s.withCmd p rest w).cmdReady = true → txStep s.crc w = txStep s.crc v) :
    step (s.withCmd p rest w) = step (s.withCmd p rest v) := by
  rw [step_eq, step_eq, edge_eq_ite, edge_eq_ite, withCmd_cmdReady s p rest v w]
  by_cases haccept : p.cmdValid = true ∧ (s.withCmd p rest w).cmdReady = true
  · obtain ⟨hvalid, hready⟩ := haccept
    have heffect : txStep (s.withCmd p rest w).crc (s.withCmd p rest w).pins.cmd =
        txStep (s.withCmd p rest v).crc (s.withCmd p rest v).pins.cmd := h hvalid hready
    rw [heffect]
    rfl
  · have hno : ∀ u, ((s.withCmd p rest u).pins.cmdValid && (s.withCmd p rest w).cmdReady) = false := fun u => by
      simpa [State.pins] using haccept
    rw [hno, hno]
    rfl

/-- Settles O34: the pins, clause by clause; where no word is accepted, `step_withCmd_congr` asks nothing of the words. -/
theorem pinsDecideTheTransfer : Obligations.PinsDecideTheTransfer := by
  refine ⟨fun s => ⟨cmdReady_iff s, outValid_iff s, outData_of_outValid, edgeEvent_eq_reset_iff s,
    edgeEvent_eq_accept_iff s, edgeEvent_eq_emit_iff s, not_cmdReady_and_outValid s⟩, ?_⟩
  intro s p rest w hinputs hno
  have hsame : s.withCmd p rest p.cmd = s := by
    rw [State.withCmd, ← hinputs]
  have hready : (s.withCmd p rest w).cmdReady = s.cmdReady := by rw [withCmd_cmdReady s p rest w p.cmd, hsame]
  calc step (s.withCmd p rest w)
      _ = step (s.withCmd p rest p.cmd) :=
        step_withCmd_congr s p rest fun hvalid h => absurd ⟨hvalid, hready ▸ h⟩ hno
      _ = step s := by rw [hsame]

theorem txStep_of_endBit_true (c : Word16) {w : CmdWord} (h : endBit w = true) : txStep c w = endEffect c := by
  rw [txStep, decode_of_endBit_true h, txExec]

/-- Settles O3: a word with its `end` bit set has the effect of `END`, and the edge sees no more of it than that. -/
theorem reservedEndWordsActAsEnd : Obligations.ReservedEndWordsActAsEnd := by
  intro w s p rest hw
  have hbit : endBit w = true := (endBit_iff w).2 hw
  have heffect (c : Word16) : txStep c w = txStep c 0x100#9 := by
    rw [txStep_of_endBit_true c hbit, txStep_of_endBit_true c rfl]
  exact ⟨decode_of_endBit_true hbit, heffect, step_withCmd_congr s p rest fun _ _ => heffect s.crc⟩

/-- A presented word is accepted: nothing is pending any more and no reset is driven (log 4). -/
theorem edgeEvent_presentWord (s : State) (w : CmdWord) : (s.presentWord w).edgeEvent = .accept w :=
  (edgeEvent_eq_accept_iff _ w).2 ⟨rfl, rfl, rfl⟩

/-- Presenting a word and moving on past its edge leaves the drained state. -/
theorem nextEdge_presentWord (s : State) (w : CmdWord) : (s.presentWord w).nextEdge = s.drain := rfl

/-- The edge after a word is presented runs that word at the drained state. -/
theorem step_presentWord (s : State) (w : CmdWord) : step (s.presentWord w) = exec (decode w) s.drain := by
  rw [step, edgeEvent_presentWord, nextEdge_presentWord]

/-- Settles O36: `withFetchWord` presents the word's low nine bits, and `decodeTableWord` decodes the same ones. -/
theorem presentedWordRunsNext : Obligations.PresentedWordRunsNext :=
  fun s nbits w => ⟨step_presentWord s (cmdWordOfNat nbits w), rfl⟩

end Sys2Proof.Machine

/-! Escaped data on the wire (R51, R75): pairing through concatenation, and the shape of a frame. -/

namespace Sys2Proof.Machine

/-- A paired sequence ends with no escape marker, so what follows it decides the pairing of the whole. -/
theorem escPaired_append {a : List Byte} (h : escPaired a = true) (b : List Byte) :
    escPaired (a ++ b) = escPaired b := by
  induction a with
  | nil => rfl
  | cons c a ih =>
    obtain ⟨hpair, ha⟩ := (escPaired_cons_iff c a).1 h
    rw [← ih ha, Bool.eq_iff_iff, List.cons_append, escPaired_cons_iff, and_iff_right_iff_imp]
    intro _ hesc
    cases a with
    | nil => simp at hpair; exact absurd hesc hpair
    | cons x a => exact hpair hesc

/-- Pairing by position: the byte after an escape marker is 0x5D or 0x5E. -/
theorem getElem?_succ_of_escPaired {l : List Byte} (h : escPaired l = true) (i : Nat) (hi : l[i]? = some 0x7D#8) :
    l[i + 1]? = some 0x5D#8 ∨ l[i + 1]? = some 0x5E#8 := by
  induction l generalizing i with
  | nil => simp at hi
  | cons c r ih =>
    obtain ⟨hpair, hr⟩ := (escPaired_cons_iff c r).1 h
    cases i with
    | zero => simpa [List.head?_eq_getElem?] using hpair (Option.some.inj hi)
    | succ i => exact ih hr i (by simpa using hi)

/-- A paired sequence does not end with an escape marker (R75 (c)). -/
theorem getLast?_ne_esc_of_escPaired {l : List Byte} (h : escPaired l = true) : l.getLast? ≠ some 0x7D#8 := by
  intro hlast
  have hnext := getElem?_succ_of_escPaired h (l.length - 1) (by rwa [← List.getLast?_eq_getElem?])
  have hout : l[l.length - 1 + 1]? = none := List.getElem?_eq_none (by omega)
  simp [hout] at hnext

@[simp] theorem escPaired_escape (d : List Byte) : escPaired (escape d) = true := by
  induction d with
  | nil => rfl
  | cons c d ih => rw [escape_cons, escPaired_escByte_append, ih]

/-- No escaped data holds the delimiter (R75 (a)). -/
@[simp] theorem flag_notMem_escape (d : List Byte) : Config.flag ∉ escape d := by
  induction d with
  | nil => simp
  | cons c d ih => simp [ih]

/-- Every byte contributes at least one byte (R72). -/
theorem length_le_escape_length (d : List Byte) : d.length ≤ (escape d).length := by
  induction d with
  | nil => simp
  | cons c d ih =>
    rw [escape_cons, List.length_append, List.length_cons, escByte_length]
    omega

theorem combined_length (p : List Byte) : (combined p).length = p.length + 2 := by
  simp [combined, le16]

theorem assemble_dropLast (p : List Byte) : (assemble p).dropLast = escape (combined p) := by
  simp [assemble]

theorem assemble_escPaired (p : List Byte) : escPaired (assemble p) = true := by
  rw [assemble, escPaired_append (escPaired_escape _)]
  rfl

theorem assemble_count_flag (p : List Byte) : (assemble p).count Config.flag = 1 := by
  rw [assemble, List.count_append, List.count_eq_zero.2 (flag_notMem_escape _), List.count_singleton_self]

theorem three_le_assemble_length (p : List Byte) : 3 ≤ (assemble p).length := by
  have hbody := length_le_escape_length (combined p)
  rw [combined_length] at hbody
  rw [assemble, List.length_append, List.length_singleton]
  omega

/-- Settles O25: a frame is paired, and what stands before its delimiter is escaped data (R51, R84). -/
theorem frameShapeOnTheWire : Obligations.FrameShapeOnTheWire := by
  intro p
  have hbefore : (assemble p).dropLast.getLast? ≠ some 0x7D#8 := by
    rw [assemble_dropLast]
    exact getLast?_ne_esc_of_escPaired (escPaired_escape _)
  exact ⟨assemble_count_flag p, List.getLast?_concat, getElem?_succ_of_escPaired (assemble_escPaired p), hbefore,
    three_le_assemble_length p⟩

/-- The bytes of data's symbols are its escaped bytes (R50). -/
theorem flatMap_symbolBytes_map (d : List Byte) : (d.map symbolOfByte).flatMap symbolBytes = escape d := by
  induction d with
  | nil => rfl
  | cons c d ih => rw [List.map_cons, List.flatMap_cons, symbolBytes_symbolOfByte, ih, escape_cons]

/-- The reader takes escaped data as the data's symbols, whatever follows (R52, R75 (d)). -/
theorem readSymbols_escape_append (d r : List Byte) :
    readSymbols (escape d ++ r) = (readSymbols r).map (d.map symbolOfByte ++ ·) := by
  induction d with
  | nil => simp
  | cons c d ih =>
    rw [escape_cons, List.append_assoc, readSymbols_escByte_append, ih, Option.map_map]
    rfl

/-- Settles O26: escaping writes the symbols of the data bytes, and the reader takes them back one by one. -/
theorem frameReadsBackAsSymbols : Obligations.FrameReadsBackAsSymbols := by
  intro p
  refine ⟨?_, readSymbols_escape_append (combined p) [Config.flag]⟩
  rw [List.flatMap_append, flatMap_symbolBytes_map]
  rfl

/-- An edge without reset appends whole pairs to what is delivered and pending, or moves a byte from one to the other. -/
theorem edge_wireInv {s : State} (h : s.WireInv) (hrst : s.pins.rst = false) : s.edge.WireInv := by
  unfold State.WireInv at h ⊢
  rcases edge_cases s with ⟨hreset, -, -⟩ | ⟨-, hpend, -, -, hedge⟩ | ⟨-, -, -, -, hedge⟩ | ⟨-, -, -, -, hedge⟩
  · simp [hrst] at hreset
  · rw [hpend, List.append_nil] at h
    rw [hedge, escPaired_append h]
    exact txExec_escPaired s.crc (decode s.pins.cmd)
  · rw [hedge, State.emit_out_append_pend]
    exact h
  · rw [hedge]
    exact h

/-- An escape marker delivered, its second byte pending, and a reset driven at the coming edge (R125). -/
def resetInsidePair : State :=
  { crc := Config.crcInit, pend := [0x5D#8], out := [Config.esc], inputs := [{ PortInput.idle with rst := true }] }

/-- Settles O46: `edge_wireInv`, and the reset that discards the second byte of a pair. -/
theorem onlyResetBreaksAnEscapePair : Obligations.OnlyResetBreaksAnEscapePair := by
  refine ⟨fun s t hinv hrst hstep => ?_, resetInsidePair, resetInsidePair.edge, by decide, by decide, rfl,
    step_eq _, by decide⟩
  rw [step_eq] at hstep
  cases hstep
  exact edge_wireInv hinv hrst

end Sys2Proof.Machine

/-! Program text (R53, R54): how a text is cut into lines and a line into words, and what the printed lines read
as. -/

namespace Sys2Proof.Machine

/-- What stands before the first line end is the first line; the text behind it is read by itself. -/
theorem textLines_append_newline {l : List Char} (h : '\n' ∉ l) (cur r : List Char) :
    textLines cur (l ++ '\n' :: r) = (cur ++ l) :: textLines [] r := by
  induction l generalizing cur with
  | nil => simp [textLines]
  | cons c l ih =>
    obtain ⟨hc, hl⟩ := not_or.1 (mt List.mem_cons.2 h)
    rw [List.cons_append, textLines, if_neg (Ne.symm hc), ih hl, List.append_assoc, List.singleton_append]

theorem textLines_of_notMem {l : List Char} (h : '\n' ∉ l) (cur : List Char) : textLines cur l = [cur ++ l] := by
  induction l generalizing cur with
  | nil => simp [textLines]
  | cons c l ih =>
    obtain ⟨hc, hl⟩ := not_or.1 (mt List.mem_cons.2 h)
    rw [textLines, if_neg (Ne.symm hc), ih hl, List.append_assoc, List.singleton_append]

/-- A first line that reads as `a`, then a text that reads as `b`. -/
theorem parseProgram_append_newline {l r : List Char} {a b : List Instr} (h : '\n' ∉ l)
    (hl : parseLine l = some a) (hr : parseProgram r = some b) : parseProgram (l ++ '\n' :: r) = some (a ++ b) := by
  unfold parseProgram at hr ⊢
  rw [textLines_append_newline h, List.nil_append, parseLines, hl, hr]

/-- A text of one line reads as that line. -/
theorem parseProgram_of_notMem {l : List Char} {a : List Instr} (h : '\n' ∉ l) (hl : parseLine l = some a) :
    parseProgram l = some a := by
  rw [parseProgram, textLines_of_notMem h, List.nil_append]
  simp [parseLines, hl]

/-- A character of a word: it ends no line, starts no comment and, in small letters, is no blank. -/
def isWordChar (c : Char) : Bool := c != '\n' && c != ';' && !isBlank (lowerChar c)

theorem isWordChar_iff (c : Char) :
    isWordChar c = true ↔ c ≠ '\n' ∧ c ≠ ';' ∧ isBlank (lowerChar c) = false := by
  simp [isWordChar, and_assoc]

theorem newline_notMem_word {w : List Char} (h : w.all isWordChar = true) : '\n' ∉ w :=
  fun hmem => ((isWordChar_iff _).1 (List.all_eq_true.1 h _ hmem)).1 rfl

/-- A word joins the word read so far. -/
theorem lineWords_word_append {w : List Char} (h : w.all isWordChar = true) (cur r : List Char) :
    lineWords cur (w.map lowerChar ++ r) = lineWords (cur ++ w.map lowerChar) r := by
  induction w generalizing cur with
  | nil => simp
  | cons c w ih =>
    obtain ⟨hc, hw⟩ := Bool.and_eq_true_iff.1 h
    obtain ⟨-, -, hblank⟩ := (isWordChar_iff c).1 hc
    rw [List.map_cons, List.cons_append, lineWords, hblank, if_neg Bool.false_ne_true, ih hw, List.append_assoc,
      List.singleton_append]

/-- A word at the end of a line. -/
theorem lineWords_word {w : List Char} (h : w.all isWordChar = true) (hne : w ≠ []) :
    lineWords [] (w.map lowerChar) = [w.map lowerChar] := by
  have hread := lineWords_word_append h [] []
  rw [List.append_nil, List.nil_append, lineWords] at hread
  simpa [hne] using hread

/-- A word closed by a space. -/
theorem lineWords_word_space {w : List Char} (h : w.all isWordChar = true) (hne : w ≠ []) (r : List Char) :
    lineWords [] (w.map lowerChar ++ ' ' :: r) = w.map lowerChar :: lineWords [] r := by
  rw [lineWords_word_append h, List.nil_append, lineWords]
  simp [isBlank, hne]

/-- A line without a comment is read whole. -/
theorem takeWhile_word {w : List Char} (h : w.all isWordChar = true) (r : List Char) :
    (w ++ r).takeWhile (· != ';') = w ++ r.takeWhile (· != ';') :=
  List.takeWhile_append_of_pos fun c hc => by
    simpa using ((isWordChar_iff c).1 (List.all_eq_true.1 h c hc)).2.1

/-- A hexadecimal digit, printed in capitals, is part of a word and reads back (R10, R53). -/
theorem hexDigit_reads_back : ∀ n < 16,
    isWordChar (hexDigit n) = true ∧ hexValue (lowerChar (hexDigit n)) = some n := by
  decide

theorem all_isWordChar_hexText (b : Byte) : (hexText b).all isWordChar = true := by
  have hhi : b.toNat / 16 < 16 := by omega
  have hlo : b.toNat % 16 < 16 := by omega
  simp [hexText, hexDigit_reads_back _ hhi, hexDigit_reads_back _ hlo]

/-- The two digits of a byte read back as that byte (R10). -/
theorem hexByte_hexText (b : Byte) :
    hexByte (lowerChar (hexDigit (b.toNat / 16))) (lowerChar (hexDigit (b.toNat % 16))) = some b := by
  obtain ⟨-, hhi⟩ := hexDigit_reads_back (b.toNat / 16) (by omega)
  obtain ⟨-, hlo⟩ := hexDigit_reads_back (b.toNat % 16) (by omega)
  rw [hexByte, hhi, hlo]
  simp only [Nat.div_add_mod, BitVec.ofNat_toNat, BitVec.setWidth_eq]

theorem all_isWordChar_flatMap_hexText (p : List Byte) : (p.flatMap hexText).all isWordChar = true := by
  rw [List.all_flatMap, List.all_eq_true]
  exact fun b _ => all_isWordChar_hexText b

/-- The printed bytes of a payload read back as that payload (R54). -/
theorem hexBytes_flatMap_hexText (p : List Byte) : hexBytes ((p.flatMap hexText).map lowerChar) = some p := by
  induction p with
  | nil => rfl
  | cons b p ih =>
    rw [List.flatMap_cons, List.map_append]
    simp only [hexText, List.map_cons, List.map_nil, List.cons_append, List.nil_append, hexBytes, hexByte_hexText]
    rw [ih]

/-- The operand `0xHH` reads back as its byte (R53). -/
theorem hexOperand_hexText (b : Byte) : hexOperand ((['0', 'x'] ++ hexText b).map lowerChar) = some b :=
  hexByte_hexText b

/-- The words of a line that is one word. -/
theorem lineWords_of_one_word {k : List Char} (hk : k.all isWordChar = true) (hkne : k ≠ []) :
    lineWords [] ((k.takeWhile (· != ';')).map lowerChar) = [k.map lowerChar] := by
  have hcode := takeWhile_word hk []
  rw [List.append_nil, List.takeWhile_nil, List.append_nil] at hcode
  rw [hcode, lineWords_word hk hkne]

/-- The words of a line that is two words. -/
theorem lineWords_of_two_words {k a : List Char} (hk : k.all isWordChar = true) (hkne : k ≠ [])
    (ha : a.all isWordChar = true) (hane : a ≠ []) :
    lineWords [] (((k ++ ' ' :: a).takeWhile (· != ';')).map lowerChar) = [k.map lowerChar, a.map lowerChar] := by
  have hspace : (' ' :: a).takeWhile (· != ';') = ' ' :: a.takeWhile (· != ';') := rfl
  have hlower : lowerChar ' ' = ' ' := by decide
  rw [takeWhile_word hk, hspace, List.map_append, List.map_cons, hlower, lineWords_word_space hk hkne,
    lineWords_of_one_word ha hane]

theorem parseLine_end : parseLine ['E', 'N', 'D'] = some [.endFrame] := by
  rw [parseLine, lineWords_of_one_word (by decide) (by decide)]
  rfl

theorem parseLine_data {a : List Char} (ha : a.all isWordChar = true) (hne : a ≠ []) :
    parseLine (['D', 'A', 'T', 'A'] ++ ' ' :: a) = (hexOperand (a.map lowerChar)).map fun b => [.data b] := by
  rw [parseLine, lineWords_of_two_words (by decide) (by decide) ha hne]
  rfl

theorem parseLine_frame {a : List Char} (ha : a.all isWordChar = true) (hne : a ≠ []) :
    parseLine (['F', 'R', 'A', 'M', 'E'] ++ ' ' :: a) = (hexBytes (a.map lowerChar)).map frameOps := by
  rw [parseLine, lineWords_of_two_words (by decide) (by decide) ha hne]
  rfl

theorem all_isWordChar_operand (b : Byte) : (['0', 'x'] ++ hexText b).all isWordChar = true := by
  rw [List.all_append, all_isWordChar_hexText]
  rfl

/-- A line of two words holds no line end. -/
theorem newline_notMem_two_words {k a : List Char} (hk : k.all isWordChar = true) (ha : a.all isWordChar = true) :
    '\n' ∉ k ++ ' ' :: a := by
  simp [newline_notMem_word hk, newline_notMem_word ha]

theorem newline_notMem_printOp (i : Instr) : '\n' ∉ printOp i := by
  cases i with
  | data b => exact newline_notMem_two_words (k := ['D', 'A', 'T', 'A']) (by decide) (all_isWordChar_operand b)
  | endFrame => exact newline_notMem_word (by decide)

/-- The printed line of an operation reads as that operation (R53). -/
theorem parseLine_printOp (i : Instr) : parseLine (printOp i) = some [i] := by
  cases i with
  | data b =>
    calc parseLine (['D', 'A', 'T', 'A'] ++ ' ' :: (['0', 'x'] ++ hexText b))
        _ = (hexOperand ((['0', 'x'] ++ hexText b).map lowerChar)).map fun b => [.data b] :=
          parseLine_data (all_isWordChar_operand b) (by simp)
        _ = some [.data b] := by rw [hexOperand_hexText, Option.map_some]
  | endFrame => exact parseLine_end

theorem parseProgram_printProgram (is : List Instr) : parseProgram (printProgram is) = some is := by
  induction is with
  | nil => rfl
  | cons i is ih => exact parseProgram_append_newline (newline_notMem_printOp i) (parseLine_printOp i) ih

/-- The line `FRAME h` reads as the invocation of the payload `h` spells (R54). -/
theorem parseLine_printFrame (p : List Byte) : parseLine (printFrame p) = some (frameOps p) := by
  cases p with
  | nil => rfl
  | cons b p =>
    have hne : (b :: p).flatMap hexText ≠ [] := by simp [hexText]
    calc parseLine (['F', 'R', 'A', 'M', 'E'] ++ ' ' :: (b :: p).flatMap hexText)
        _ = (hexBytes (((b :: p).flatMap hexText).map lowerChar)).map frameOps :=
          parseLine_frame (all_isWordChar_flatMap_hexText _) hne
        _ = some (frameOps (b :: p)) := by rw [hexBytes_flatMap_hexText, Option.map_some]

theorem newline_notMem_printFrame (p : List Byte) : '\n' ∉ printFrame p :=
  newline_notMem_two_words (k := ['F', 'R', 'A', 'M', 'E']) (by decide) (all_isWordChar_flatMap_hexText p)

/-- Settles O4: a program line by line, and `FRAME h` as a text of one line. -/
theorem programTextReadsBack : Obligations.ProgramTextReadsBack :=
  ⟨parseProgram_printProgram, fun p => parseProgram_of_notMem (newline_notMem_printFrame p) (parseLine_printFrame p)⟩

end Sys2Proof.Machine

/-! The left-shifting form (R62): reflection carries each of its steps to the normative one. -/

namespace Sys2Proof.Machine

/-- What a reflection is, read off the low end (R12). -/
theorem getLsbD_reverse_of_lt {n i : Nat} (h : i < n) (v : BitVec n) :
    v.reverse.getLsbD i = v.getLsbD (n - 1 - i) := by
  rw [BitVec.getLsbD_reverse, BitVec.getMsbD_eq_getLsbD, decide_eq_true h, Bool.true_and]

theorem reflect16_getLsbD {i : Nat} (h : i < 16) (v : Word16) : (reflect16 v).getLsbD i = v.getLsbD (15 - i) :=
  getLsbD_reverse_of_lt h v

theorem reflect8_getLsbD {i : Nat} (h : i < 8) (b : Byte) : (reflect8 b).getLsbD i = b.getLsbD (7 - i) :=
  getLsbD_reverse_of_lt h b

@[simp] theorem reflect16_reflect16 (v : Word16) : reflect16 (reflect16 v) = v := BitVec.reverse_reverse_eq

theorem reflect16_xor (a b : Word16) : reflect16 (a ^^^ b) = reflect16 a ^^^ reflect16 b := by
  apply BitVec.eq_of_getLsbD_eq
  intro i hi
  simp only [BitVec.getLsbD_xor, reflect16_getLsbD hi]

/-- A right shift, reflected, is a left shift. -/
theorem reflect16_ushiftRight_one (c : Word16) : reflect16 (c >>> 1) = reflect16 c <<< 1 := by
  apply BitVec.eq_of_getLsbD_eq
  intro i hi
  rw [reflect16_getLsbD hi, BitVec.getLsbD_ushiftRight, BitVec.getLsbD_shiftLeft]
  cases i with
  | zero => simp
  | succ i =>
    have hprev : i < 16 := by omega
    have hindex : 1 + (15 - (i + 1)) = 15 - i := by omega
    rw [hindex, Nat.add_sub_cancel, reflect16_getLsbD hprev]
    simp [hi]

/-- The two spellings of the polynomial are each other's reflection (R6, C2). -/
theorem reflect16_crcPolyRev : reflect16 Config.crcPolyRev = Config.crcPoly := by decide

theorem reflect16_crcInit : reflect16 Config.crcInit = Config.crcInit := by decide

/-- A byte that enters at the low end, reflected, is the reflected byte entering at the high end. -/
theorem reflect16_zext16 (b : Byte) : reflect16 (zext16 b) = zext16 (reflect8 b) <<< 8 := by
  apply BitVec.eq_of_getLsbD_eq
  intro i hi
  rw [reflect16_getLsbD hi, BitVec.getLsbD_shiftLeft, zext16, zext16, BitVec.getLsbD_setWidth, BitVec.getLsbD_setWidth]
  by_cases h : i < 8
  · have hhigh : 8 ≤ 15 - i := by omega
    simp [h, BitVec.getLsbD_of_ge b (15 - i) hhigh]
  · have hlow : i - 8 < 8 := by omega
    have hindex : 7 - (i - 8) = 15 - i := by omega
    have hwide : 15 - i < 16 := by omega
    rw [reflect8_getLsbD hlow, hindex]
    simp [h, hi, hwide, hlow.trans (by decide : 8 < 16)]

/-- The bit at the high end of the reflected register is the one `crc_bit` shifts out, and the rest of the step is
reflected term by term. -/
theorem msbBit_reflect16 (c : Word16) : msbBit (reflect16 c) = reflect16 (crcBit c) := by
  have hout : (reflect16 c).getLsbD 15 = bitOut c := reflect16_getLsbD (by decide) c
  unfold msbBit crcBit
  rw [hout]
  cases bitOut c with
  | false => exact (reflect16_ushiftRight_one c).symm
  | true =>
    change reflect16 c <<< 1 ^^^ Config.crcPoly = reflect16 (c >>> 1 ^^^ Config.crcPolyRev)
    rw [reflect16_xor, reflect16_ushiftRight_one, reflect16_crcPolyRev]

theorem msbBitTimes_reflect16 (n : Nat) (c : Word16) :
    msbBitTimes n (reflect16 c) = reflect16 (crcBitTimes n c) := by
  induction n generalizing c with
  | zero => rfl
  | succ n ih => rw [msbBitTimes, msbBit_reflect16, ih, crcBitTimes_succ]

theorem msbByte_reflect16 (c : Word16) (b : Byte) : msbByte (reflect16 c) b = reflect16 (crcByte c b) := by
  rw [msbByte, ← reflect16_zext16, ← reflect16_xor, msbBitTimes_reflect16, crcByte]

/-- The simulation: a run of the left-shifting form from the reflected register is the reflected run. -/
theorem msbRun_reflect16 (c : Word16) (s : List Byte) : msbRun (reflect16 c) s = reflect16 (crcRun c s) := by
  induction s generalizing c with
  | nil => rfl
  | cons b s ih => rw [msbRun_cons, msbByte_reflect16, ih, crcRun_cons]

/-- The initial register is its own reflection, so the simulation starts from it. -/
theorem computeChecksumMsb_eq (p : List Byte) : computeChecksumMsb p = computeChecksum p := by
  have hrun := msbRun_reflect16 Config.crcInit p
  rw [reflect16_crcInit] at hrun
  rw [computeChecksumMsb, hrun, reflect16_reflect16, computeChecksum]

/-- Settles O9: reflection is a simulation, step by step (`msbBit_reflect16`) and so along every run. -/
theorem leftShiftingFormIsEquivalent : Obligations.LeftShiftingFormIsEquivalent :=
  ⟨fun c s => by rw [msbRun_reflect16, reflect16_reflect16], computeChecksumMsb_eq, reflect16_crcInit, by decide⟩

end Sys2Proof.Machine

/-! Bit step, byte step and run in their normative form (R57 to R61, R66). -/

namespace Sys2Proof.Machine

theorem crcBitTimes_add (m n : Nat) (c : Word16) : crcBitTimes (m + n) c = crcBitTimes n (crcBitTimes m c) := by
  induction m generalizing c with
  | zero => rw [Nat.zero_add, crcBitTimes_zero]
  | succ m ih => rw [Nat.succ_add, crcBitTimes_succ, ih, crcBitTimes_succ]

/-- The byte enters through exclusive-or alone, so it can be in the register before the step (R58). -/
theorem crcByte_eq_crcByte_zero (c : Word16) (b : Byte) : crcByte c b = crcByte (c ^^^ zext16 b) 0x00#8 :=
  congrArg (crcBitTimes 8) (BitVec.xor_zero (x := c ^^^ zext16 b)).symm

/-- Settles O6: the eight steps are `crcBitTimes 8` written out; bit by bit it is `crcByte_eq_foldl_crcFeedBit`. -/
theorem crcByteIsEightBitSteps : Obligations.CrcByteIsEightBitSteps :=
  ⟨fun _ _ => rfl, fun c b => crcByte_eq_foldl_crcFeedBit c b, crcByte_eq_crcByte_zero,
    by decide, by decide, by decide, by decide, by decide, by decide, by decide, by decide⟩

theorem crcRun_eq_foldl (c : Word16) (s : List Byte) : crcRun c s = s.foldl crcByte c := by
  induction s generalizing c with
  | nil => rfl
  | cons b s ih => rw [crcRun_cons, ih, List.foldl_cons]

theorem crcRun_append (c : Word16) (s t : List Byte) : crcRun c (s ++ t) = crcRun (crcRun c s) t := by
  simp only [crcRun_eq_foldl, List.foldl_append]

/-- Settles O7: the run is the fold, and a fold runs over a concatenation piece by piece. -/
theorem crcRunIsALeftFold : Obligations.CrcRunIsALeftFold :=
  ⟨crcRun_nil, crcRun_cons, crcRun_eq_foldl, crcRun_append⟩

/-- Settles O5: the rule is the definition, and the shift is `BitVec`'s. -/
theorem crcBitFollowsTheShiftRule : Obligations.CrcBitFollowsTheShiftRule := by
  refine ⟨fun _ => rfl, fun c => ⟨?_, fun i _ => ?_⟩, by decide, by decide, by decide, by decide, by decide⟩
  · simp
  · rw [BitVec.getLsbD_ushiftRight, Nat.add_comm]

/-- Settles O8: the checksum is its definition, and the printed vectors are runs of it. -/
theorem checksumOfAPayload : Obligations.ChecksumOfAPayload :=
  ⟨fun _ => rfl, rfl, by decide +kernel, by decide +kernel, by decide +kernel, by decide +kernel⟩

end Sys2Proof.Machine

/-! The steps as maps of the register: linear or affine over exclusive-or, and one to one (R65). -/

namespace Sys2Proof.Machine

/-- The byte step is linear in register and byte together. -/
theorem crcByte_xor (a a' : Word16) (b b' : Byte) :
    crcByte (a ^^^ a') (b ^^^ b') = crcByte a b ^^^ crcByte a' b' := by
  have hsum : (a ^^^ a') ^^^ zext16 (b ^^^ b') = (a ^^^ zext16 b) ^^^ (a' ^^^ zext16 b') := by
    rw [zext16, BitVec.setWidth_xor, zext16, zext16]
    ac_rfl
  rw [crcByte, hsum, crcBitTimes_xor, crcByte, crcByte]

/-- The byte step is affine in the register. -/
theorem crcByte_xor_register (a a' : Word16) (b : Byte) :
    crcByte (a ^^^ a') b = crcByte a b ^^^ crcByte a' 0x00#8 := by
  rw [← crcByte_xor, BitVec.xor_zero]

/-- The run is affine in the register. -/
theorem crcRun_xor_register (a a' : Word16) (s : List Byte) :
    crcRun (a ^^^ a') s = crcRun a s ^^^ crcRun a' (List.replicate s.length 0x00#8) := by
  induction s generalizing a a' with
  | nil => rfl
  | cons b s ih =>
    rw [crcRun_cons, crcByte_xor_register, ih, crcRun_cons, List.length_cons, List.replicate_succ, crcRun_cons]

/-- Bit 15 of the result shows whether a bit was shifted out, so nothing but zero is stepped to zero. -/
theorem eq_zero_of_crcBit_eq_zero {c : Word16} (h : crcBit c = 0#16) : c = 0#16 := by
  have hbit (i : Nat) : (c.getLsbD (i + 1) ^^ (c.getLsbD 0 && Config.crcPolyRev.getLsbD i)) = false := by
    rw [← crcBit_getLsbD, h, BitVec.getLsbD_zero]
  have hout : c.getLsbD 0 = false := by
    simpa [Config.crcPolyRev] using hbit 15
  apply BitVec.eq_of_getLsbD_eq
  intro i _
  cases i with
  | zero => simpa using hout
  | succ i =>
    rw [BitVec.getLsbD_zero, ← hbit i, hout, Bool.false_and, Bool.xor_false]

theorem crcBit_injective : Function.Injective crcBit := by
  intro a b h
  rw [← BitVec.xor_eq_zero_iff]
  apply eq_zero_of_crcBit_eq_zero
  rw [crcBit_xor_linear, h, BitVec.xor_self]

theorem crcBitTimes_injective (n : Nat) : Function.Injective (crcBitTimes n) := by
  induction n with
  | zero => exact Function.injective_id
  | succ n ih => exact ih.comp crcBit_injective

theorem crcByte_injective (b : Byte) : Function.Injective fun c => crcByte c b :=
  fun _ _ h => (BitVec.xor_left_inj _).1 (crcBitTimes_injective 8 h)

/-- Settles O12: linearity of the bit step carries over to byte step and run; one to one on a finite set is onto. -/
theorem crcStepsAreAffineAndBijective : Obligations.CrcStepsAreAffineAndBijective := by
  refine ⟨crcBit_xor_linear, fun a b => crcByte_xor_register a b _, fun a b n => ?_, crcByte_xor_register,
    crcRun_xor_register, fun b => (crcByte_injective b).bijective_of_finite⟩
  rw [crcRun_xor_register, List.length_replicate]

end Sys2Proof.Machine

/-! The residue (R67). -/

namespace Sys2Proof.Machine

/-- Two bytes fed low byte first are sixteen one-bit steps of the register with the whole word in it: the high byte can
enter eight steps early, in the high half. -/
theorem crcRun_le16 (c v : Word16) : crcRun c (le16 v) = crcBitTimes 16 (c ^^^ v) := by
  have hearly : crcByte c (lowByte v) ^^^ zext16 (highByte v) = crcBitTimes 8 (c ^^^ v) := by
    calc crcBitTimes 8 (c ^^^ zext16 (lowByte v)) ^^^ zext16 (highByte v)
        _ = crcBitTimes 8 (c ^^^ zext16 (lowByte v) ^^^ zext16 (highByte v) <<< 8) := by
          rw [crcBitTimes_xor _ (c ^^^ zext16 (lowByte v)), crcBitTimes_high]
        _ = crcBitTimes 8 (c ^^^ v) := by
          rw [BitVec.xor_assoc, BitVec.xor_comm (zext16 (lowByte v)), ← word_eq_high_xor_low]
  rw [le16, crcRun_cons, crcRun_cons, crcRun_nil, crcByte, hearly, ← crcBitTimes_add]

/-- The register and its own inverse differ in every bit, whatever the register holds. -/
theorem crcRun_le16_checksumOfCrc (c : Word16) : crcRun c (le16 (checksumOfCrc c)) = 0xF0B8#16 := by
  have hones : c ^^^ checksumOfCrc c = 0xFFFF#16 := by
    rw [checksumOfCrc, ← BitVec.xor_assoc, BitVec.xor_self, BitVec.zero_xor, Config.crcXorOut]
  rw [crcRun_le16, hones]
  decide +kernel

theorem crcRun_append_le16_computeChecksum (p : List Byte) :
    crcRun Config.crcInit (p ++ le16 (computeChecksum p)) = 0xF0B8#16 := by
  rw [crcRun_append]
  exact crcRun_le16_checksumOfCrc (crcRun Config.crcInit p)

/-- Settles O14: the register that ran over the payload meets its own inverse (`crcRun_le16_checksumOfCrc`). -/
theorem checksumResidue : Obligations.ChecksumResidue := by
  intro p v
  refine ⟨crcRun_append_le16_computeChecksum p, ?_⟩
  rw [computeChecksum, crcRun_append_le16_computeChecksum]
  decide

end Sys2Proof.Machine

/-! The parallel form (R64): the byte step bit by bit of its result. -/

namespace Sys2Proof.Machine

/-- Four steps shift out the four low bits as they stood, since the polynomial's bits 0 to 2 are 0: what a step feeds
back does not reach bit 0 in time. Each bit shifted out applies the polynomial, moved down by the steps that follow. -/
theorem crcBitTimes_four_getLsbD (v : Word16) (i : Nat) :
    (crcBitTimes 4 v).getLsbD i =
      (v.getLsbD (i + 4) ^^ (v.getLsbD 0 && Config.crcPolyRev.getLsbD (i + 3)) ^^
        (v.getLsbD 1 && Config.crcPolyRev.getLsbD (i + 2)) ^^ (v.getLsbD 2 && Config.crcPolyRev.getLsbD (i + 1)) ^^
        (v.getLsbD 3 && Config.crcPolyRev.getLsbD i)) := by
  have h0 : Config.crcPolyRev.getLsbD 0 = false := rfl
  have h1 : Config.crcPolyRev.getLsbD 1 = false := rfl
  have h2 : Config.crcPolyRev.getLsbD 2 = false := rfl
  simp only [crcBitTimes_succ, crcBitTimes_zero, crcBit_getLsbD, h0, h1, h2, Nat.zero_add, Nat.add_assoc,
    Nat.reduceAdd, Bool.and_false, Bool.xor_false]

/-- Eight steps are four steps twice. The second four shift out bits 4 to 7 with what the first four fed back into them:
bits 0 to 3, through the polynomial's bit 3. -/
theorem crcBitTimes_eight_getLsbD (v : Word16) (i : Nat) :
    (crcBitTimes 8 v).getLsbD i =
      (v.getLsbD (i + 8) ^^ (v.getLsbD 0 && Config.crcPolyRev.getLsbD (i + 7)) ^^
        (v.getLsbD 1 && Config.crcPolyRev.getLsbD (i + 6)) ^^ (v.getLsbD 2 && Config.crcPolyRev.getLsbD (i + 5)) ^^
        (v.getLsbD 3 && Config.crcPolyRev.getLsbD (i + 4)) ^^
        ((v.getLsbD 4 ^^ v.getLsbD 0) && Config.crcPolyRev.getLsbD (i + 3)) ^^
        ((v.getLsbD 5 ^^ v.getLsbD 1) && Config.crcPolyRev.getLsbD (i + 2)) ^^
        ((v.getLsbD 6 ^^ v.getLsbD 2) && Config.crcPolyRev.getLsbD (i + 1)) ^^
        ((v.getLsbD 7 ^^ v.getLsbD 3) && Config.crcPolyRev.getLsbD i)) := by
  rw [crcBitTimes_add 4 4, crcBitTimes_four_getLsbD]
  simp only [crcBitTimes_four_getLsbD, Nat.add_assoc, Nat.reduceAdd]
  simp [Config.crcPolyRev]

/-- `x_i` of R64 is a bit of the register that the byte has entered. -/
theorem getLsbD_xor_zext16_low {i : Nat} (h : i < 8) (c : Word16) (b : Byte) :
    (c ^^^ zext16 b).getLsbD i = feedBit c b i := by
  rw [BitVec.getLsbD_xor, zext16, BitVec.getLsbD_setWidth, decide_eq_true (by omega : i < 16), Bool.true_and, feedBit]

theorem getLsbD_xor_zext16_high (i : Nat) (c : Word16) (b : Byte) :
    (c ^^^ zext16 b).getLsbD (i + 8) = c.getLsbD (i + 8) := by
  simp [zext16]

/-- Each printed equation is `crcBitTimes_eight_getLsbD` at its bit, where the polynomial's bits 3, 10 and 15 keep the
terms the rule lists. -/
theorem crcByteParallel_eq_crcByte (c : Word16) (b : Byte) : crcByteParallel c b = crcByte c b := by
  apply BitVec.eq_of_getLsbD_eq
  intro i hi
  have hi16 : i < 16 := hi
  rw [crcByte, crcBitTimes_eight_getLsbD, getLsbD_xor_zext16_high, crcByteParallel, BitVec.getLsbD_ofBoolListBE]
  simp only [getLsbD_xor_zext16_low, Nat.reduceLT]
  interval_cases i <;> simp [Config.crcPolyRev, Bool.xor_comm, Bool.xor_left_comm]

/-- Settles O11: the parallel form is the byte step, and its sixteen bits are written as the equations. -/
theorem parallelFormIsEquivalent : Obligations.ParallelFormIsEquivalent := by
  intro c b x n
  refine ⟨?_, crcByteParallel_eq_crcByte c b⟩
  simp only [n, ← crcByteParallel_eq_crcByte c b, crcByteParallel, BitVec.getLsbD_ofBoolListBE]
  exact ⟨rfl, rfl, rfl, rfl, rfl, rfl, rfl, rfl, rfl, rfl, rfl, rfl, rfl, rfl, rfl, rfl⟩

end Sys2Proof.Machine

/-! The byte stuffer on whole data (R70 to R76): concatenation, length, the reader's view and the inverse. -/

namespace Sys2Proof.Machine

theorem escByte_of_not_reserved {c : Byte} (hesc : c ≠ 0x7D#8) (hflag : c ≠ 0x7E#8) : escByte c = [c] := by
  rw [escByte, (isReserved_eq_false_iff c).2 ⟨hesc, hflag⟩]
  rfl

/-- The mask 0x20 has bit 5 set and no other. -/
theorem getLsbD_xor_escXor (c : Byte) {i : Nat} (h : i < 8) :
    (c ^^^ 0x20#8).getLsbD i = (c.getLsbD i ^^ decide (i = 5)) := by
  have hmask : (0x20#8).getLsbD i = decide (i = 5) := by
    interval_cases i <;> decide
  rw [BitVec.getLsbD_xor, hmask]

/-- Settles O15: the two reserved bytes by their values, the others by `escByte_of_not_reserved`. -/
theorem escapeOfOneByte : Obligations.EscapeOfOneByte :=
  ⟨by decide, by decide, fun _ => escByte_of_not_reserved, fun c _ => getLsbD_xor_escXor c⟩

theorem escape_eq_flatMap (d : List Byte) : escape d = d.flatMap escByte := by
  induction d with
  | nil => rfl
  | cons c d ih => rw [escape_cons, ih, List.flatMap_cons]

theorem escape_append (s t : List Byte) : escape (s ++ t) = escape s ++ escape t := by
  simp only [escape_eq_flatMap, List.flatMap_append]

/-- Settles O16: `escape` is a `flatMap`, which runs over a concatenation piece by piece. -/
theorem escapeIsBytewise : Obligations.EscapeIsBytewise :=
  ⟨escape_nil, escape_eq_flatMap, escape_append, by decide⟩

theorem countReserved_eq_countP (d : List Byte) : countReserved d = d.countP isReserved := by
  induction d with
  | nil => rfl
  | cons c d ih => rw [countReserved_cons, ih, List.countP_cons, Nat.add_comm]

/-- The length law of R72. -/
theorem escape_length (d : List Byte) : (escape d).length = d.length + countReserved d := by
  induction d with
  | nil => rfl
  | cons c d ih =>
    rw [escape_cons, List.length_append, escByte_length, ih, List.length_cons, countReserved_cons]
    omega

theorem countReserved_eq_zero_iff (d : List Byte) : countReserved d = 0 ↔ ∀ c ∈ d, c ≠ 0x7D#8 ∧ c ≠ 0x7E#8 := by
  simp only [countReserved_eq_countP, List.countP_eq_zero, Bool.not_eq_true, isReserved_eq_false_iff]

theorem countReserved_eq_length_iff (d : List Byte) :
    countReserved d = d.length ↔ ∀ c ∈ d, c = 0x7D#8 ∨ c = 0x7E#8 := by
  simp only [countReserved_eq_countP, List.countP_eq_length, isReserved_iff]

/-- Settles O17: by the length law, each bound is met exactly when the count of reserved bytes meets its own bound. -/
theorem escapeLength : Obligations.EscapeLength := by
  intro d
  have hlen := escape_length d
  have hcount := countReserved_eq_countP d
  have hle : countReserved d ≤ d.length := hcount ▸ List.countP_le_length
  refine ⟨hcount ▸ hlen, hcount, length_le_escape_length d, by omega, ?_, ?_⟩
  · rw [← countReserved_eq_zero_iff]
    omega
  · rw [← countReserved_eq_length_iff]
    omega

/-- R74's claim. -/
theorem escape_eq_self_of_countReserved_eq_zero {d : List Byte} (h : countReserved d = 0) : escape d = d := by
  induction d with
  | nil => rfl
  | cons c d ih =>
    rw [countReserved_cons, Nat.add_eq_zero_iff] at h
    obtain ⟨hc, hd⟩ := h
    rcases escByte_cases c with ⟨-, hr, -⟩ | ⟨-, hr, -⟩ | ⟨-, -, -, hesc⟩
    · simp [hr] at hc
    · simp [hr] at hc
    · rw [escape_cons, hesc, ih hd, List.singleton_append]

/-- Settles O18: without reserved bytes nothing is added, the escape marker itself is escaped again, and `assemble` is one
`escape` of the data bytes by definition. -/
theorem escapeOfUnreservedDataIsUnchanged : Obligations.EscapeOfUnreservedDataIsUnchanged := by
  refine ⟨fun d h => ?_, by decide, by decide, by decide, fun _ => rfl⟩
  have hself := escape_eq_self_of_countReserved_eq_zero h
  exact ⟨hself, congrArg List.length hself⟩

theorem readSymbols_escape (d : List Byte) : readSymbols (escape d) = some (d.map symbolOfByte) := by
  simpa [readSymbols] using readSymbols_escape_append d []

/-- Settles O19: escaped data is paired (`escPaired_escape`), so each marker has its second byte behind it, the last byte
included. -/
theorem escapeOutputAlphabet : Obligations.EscapeOutputAlphabet := fun d =>
  ⟨flag_notMem_escape d, getElem?_succ_of_escPaired (escPaired_escape d),
    getLast?_ne_esc_of_escPaired (escPaired_escape d), readSymbols_escape d⟩

/-- After the escape marker any byte is taken, not only 0x5D and 0x5E (R76). -/
theorem unescape_esc_cons (x : Byte) (r : List Byte) :
    unescape (0x7D#8 :: x :: r) = (unescape r).map ((x ^^^ 0x20#8) :: ·) := rfl

theorem unescape_cons_of_ne_esc {c : Byte} (h : c ≠ 0x7D#8) (r : List Byte) :
    unescape (c :: r) = (unescape r).map (c :: ·) := by
  cases r with
  | nil => simp [unescape, Config.esc, h]
  | cons x r => simp [unescape, Config.esc, h]

/-- `unescape` is a left inverse of `escape` (R76). -/
theorem unescape_escape (d : List Byte) : unescape (escape d) = some d := by
  induction d with
  | nil => rfl
  | cons c d ih => rw [escape_cons, unescape_escByte_append, ih, Option.map_some]

/-- `escape` undoes `unescape` on the outputs of `escape`, and nowhere else. -/
theorem escape_eq_iff_of_unescape_eq_some {s u : List Byte} (h : unescape s = some u) :
    escape u = s ↔ ∃ d, s = escape d := by
  constructor
  · exact fun hu => ⟨u, hu.symm⟩
  · rintro ⟨d, rfl⟩
    rw [unescape_escape, Option.some.injEq] at h
    rw [h]

/-- Settles O20: `unescape` reads each byte's escape as that byte (`unescape_escByte_append`), so it is a left inverse. -/
theorem unescapeInvertsEscape : Obligations.UnescapeInvertsEscape :=
  ⟨rfl, rfl, unescape_esc_cons, fun _ r h => unescape_cons_of_ne_esc h r, unescape_escape, by decide, by decide,
    by decide, fun _ _ => escape_eq_iff_of_unescape_eq_some⟩

end Sys2Proof.Machine

/-! Frames on the wire (R78 to R83): the printed frames, and the length of a frame and of its checksum part. -/

namespace Sys2Proof.Machine

/-- Settles O21: `le16` and `combined` by definition, the payload's checksum by running it. -/
theorem checksumGoesLowByteFirst : Obligations.ChecksumGoesLowByteFirst :=
  ⟨fun _ => rfl, by decide, by decide, by decide, by decide, fun p => ⟨rfl, combined_length p⟩, by decide +kernel⟩

/-- Settles O22: the five steps are the definition of `assemble`, and the printed frames are runs of it. -/
theorem frameFollowsTheFiveSteps : Obligations.FrameFollowsTheFiveSteps :=
  ⟨fun _ => rfl, fun _ => rfl, by decide +kernel, by decide +kernel, by decide +kernel, by decide +kernel,
    by decide +kernel, by decide +kernel, by decide +kernel, by decide +kernel, by decide +kernel⟩

theorem countReserved_le_length (d : List Byte) : countReserved d ≤ d.length :=
  countReserved_eq_countP d ▸ List.countP_le_length

/-- The length law of R83. -/
theorem assemble_length (p : List Byte) : (assemble p).length = p.length + 3 + countReserved (combined p) := by
  rw [assemble, List.length_append, escape_length, combined_length, List.length_singleton]
  omega

/-- The upper bound is reached exactly when payload and checksum bytes are reserved, all of them. -/
theorem assemble_length_eq_bound_iff (p : List Byte) :
    (assemble p).length = 2 * p.length + 5 ↔ ∀ b ∈ combined p, b = 0x7D#8 ∨ b = 0x7E#8 := by
  rw [← countReserved_eq_length_iff, assemble_length, combined_length]
  omega

theorem assemble_length_le (p : List Byte) : (assemble p).length ≤ 2 * p.length + 5 := by
  have hcount := countReserved_le_length (combined p)
  rw [combined_length] at hcount
  rw [assemble_length]
  omega

/-- The checksum part of a frame: two escaped bytes and the delimiter. -/
theorem checksumPart_length (v : Word16) :
    (escape (le16 v) ++ [0x7E#8]).length = 3 + countReserved (le16 v) := by
  rw [List.length_append, escape_length, List.length_singleton, le16, List.length_cons, List.length_singleton]
  omega

/-- Settles O23: the bounds are those of the count of reserved bytes in the length law. -/
theorem frameLength : Obligations.FrameLength := by
  refine ⟨fun p => ⟨assemble_length p, ?_, assemble_length_le p, ?_⟩, fun v => ?_, by decide +kernel,
    ⟨by decide +kernel, by decide +kernel⟩, by decide +kernel, by decide +kernel⟩
  · rw [assemble_length]
    exact Nat.le_add_right _ _
  · rw [assemble_length_eq_bound_iff, combined, List.forall_mem_append]
  · have hcount : countReserved (le16 v) ≤ 2 := countReserved_le_length (le16 v)
    rw [checksumPart_length]
    omega

end Sys2Proof.Machine

/-! Short payloads of reserved bytes (R83). A frame of the greatest length is made of reserved bytes alone, and these have
the residue of R67. The two reserved bytes differ by the mask 0x03 only, so a sum of register bits that no such difference
reaches takes the same value after all sequences of reserved bytes of one length: one run for each length shows that none
has the residue. -/

namespace Sys2Proof.Machine

/-- The exclusive-or of the bits of `v` at the places `places`: a linear test of the register. -/
def bitSum (places : List Nat) (v : Word16) : Bool := places.foldr (fun i r => v.getLsbD i ^^ r) false

@[simp] theorem bitSum_nil (v : Word16) : bitSum [] v = false := rfl

@[simp] theorem bitSum_cons (i : Nat) (places : List Nat) (v : Word16) :
    bitSum (i :: places) v = (v.getLsbD i ^^ bitSum places v) := rfl

theorem bitSum_xor (places : List Nat) (a b : Word16) :
    bitSum places (a ^^^ b) = (bitSum places a ^^ bitSum places b) := by
  induction places with
  | nil => rfl
  | cons i places ih =>
    rw [bitSum_cons, BitVec.getLsbD_xor, ih, bitSum_cons, bitSum_cons, Bool.xor_assoc, Bool.xor_assoc,
      Bool.xor_left_comm (b.getLsbD i)]

/-- What a register differs by when `n` bytes ago the byte fed was 0x7E in place of 0x7D. -/
def reservedDifference (n : Nat) : Word16 := crcRun (crcByte 0x0000#16 0x03#8) (List.replicate n 0x00#8)

theorem crcRun_flag_cons (c : Word16) (s : List Byte) :
    crcRun c (0x7E#8 :: s) = crcRun c (0x7D#8 :: s) ^^^ reservedDifference s.length := by
  have hbyte : crcByte c 0x7E#8 = crcByte c 0x7D#8 ^^^ crcByte 0x0000#16 0x03#8 := by
    rw [← crcByte_xor, BitVec.xor_zero]
    rfl
  rw [crcRun_cons, hbyte, crcRun_xor_register, crcRun_cons, reservedDifference]

/-- A test that no difference of the reserved bytes reaches cannot tell reserved bytes from as many escape markers. -/
theorem bitSum_crcRun_of_reserved {places : List Nat} {s : List Byte}
    (hblind : ∀ n < s.length, bitSum places (reservedDifference n) = false)
    (hs : ∀ b ∈ s, b = 0x7D#8 ∨ b = 0x7E#8) (c : Word16) :
    bitSum places (crcRun c s) = bitSum places (crcRun c (List.replicate s.length 0x7D#8)) := by
  induction s generalizing c with
  | nil => rfl
  | cons b s ih =>
    obtain ⟨hb, hrest⟩ := List.forall_mem_cons.1 hs
    have hrun := ih (fun n hn => hblind n (Nat.lt_succ_of_lt hn)) hrest (crcByte c 0x7D#8)
    rcases hb with rfl | rfl
    · exact hrun
    · rw [crcRun_flag_cons, bitSum_xor, hblind s.length (Nat.lt_succ_self _), Bool.xor_false]
      exact hrun

/-- A test for each length from 3 to 12 that tells the residue from every sequence of reserved bytes. -/
def residueTest (n : Nat) : List Nat := if n = 5 ∨ n = 7 then [0, 5, 13] else [1, 2, 3, 8, 12, 13, 14]

theorem residueTest_blind : ∀ n < 13, ∀ i < n, bitSum (residueTest n) (reservedDifference i) = false := by
  decide +kernel

theorem residueTest_separates : ∀ n < 13, 3 ≤ n →
    bitSum (residueTest n) (crcRun Config.crcInit (List.replicate n 0x7D#8)) ≠ bitSum (residueTest n) 0xF0B8#16 := by
  decide +kernel

/-- No sequence of 3 to 12 reserved bytes has the residue of R67. -/
theorem crcRun_ne_residue_of_reserved {s : List Byte} (h3 : 3 ≤ s.length) (h12 : s.length < 13)
    (hs : ∀ b ∈ s, b = 0x7D#8 ∨ b = 0x7E#8) : crcRun Config.crcInit s ≠ 0xF0B8#16 := by
  intro hres
  apply residueTest_separates s.length h12 h3
  rw [← bitSum_crcRun_of_reserved (residueTest_blind s.length h12) hs, hres]

/-- Settles O24: at the bound the data bytes are 3 to 12 reserved bytes with the residue, and there are none. -/
theorem noShortPayloadReachesTheLengthBound : Obligations.NoShortPayloadReachesTheLengthBound := by
  intro p h1 h10 _
  apply lt_of_le_of_ne (assemble_length_le p)
  intro hbound
  have hlen := combined_length p
  exact crcRun_ne_residue_of_reserved (by omega) (by omega) ((assemble_length_eq_bound_iff p).1 hbound)
    (crcRun_append_le16_computeChecksum p)

end Sys2Proof.Machine

/-! The round trip (R88, R90): the reference decoder case by case, and what it makes of a frame. -/

namespace Sys2Proof.Machine

theorem lowByte_toNat (v : Word16) : (lowByte v).toNat = v.toNat % 256 := by
  simp [lowByte]

theorem highByte_toNat (v : Word16) : (highByte v).toNat = v.toNat / 256 := by
  simp [highByte, Nat.shiftRight_eq_div_pow]
  omega

theorem wordOfBytes_toNat (lo hi : Byte) : (wordOfBytes lo hi).toNat = lo.toNat + 256 * hi.toNat := by
  rw [wordOfBytes, BitVec.toNat_append, ← Nat.shiftLeft_add_eq_or_of_lt lo.isLt, Nat.shiftLeft_eq]
  omega

theorem eq_wordOfBytes_iff (v : Word16) (lo hi : Byte) :
    v = wordOfBytes lo hi ↔ v.toNat = lo.toNat + 256 * hi.toNat := by
  rw [← wordOfBytes_toNat, BitVec.toNat_inj]

/-- The two bytes of `le16` are read back as the word they came from. -/
theorem toNat_eq_lowByte_add_highByte (v : Word16) : v.toNat = (lowByte v).toNat + 256 * (highByte v).toNat := by
  rw [lowByte_toNat, highByte_toNat]
  omega

theorem decodeFrame_of_getLast?_ne {f : List Byte} (h : f.getLast? ≠ some 0x7E#8) : decodeFrame f = none :=
  if_neg h

theorem decodeFrame_of_unescape_eq_none {body : List Byte} (h : unescape body = none) :
    decodeFrame (body ++ [0x7E#8]) = none := by
  simp [decodeFrame, h]

theorem decodeFrame_of_unescape_length_lt_two {body u : List Byte} (h : unescape body = some u) (hu : u.length < 2) :
    decodeFrame (body ++ [0x7E#8]) = none := by
  rcases u with _ | ⟨b, _ | ⟨c, u⟩⟩
  · simp [decodeFrame, h]
  · simp [decodeFrame, h]
  · simp at hu

/-- The comparison, with the checksum bytes read low byte first. -/
theorem decodeFrame_of_unescape_eq_some {body p : List Byte} {lo hi : Byte}
    (h : unescape body = some (p ++ [lo, hi])) : decodeFrame (body ++ [0x7E#8]) =
      if (computeChecksum p).toNat = lo.toNat + 256 * hi.toNat then some p else none := by
  simp [decodeFrame, h, eq_wordOfBytes_iff, Config.flag]

/-- `unescape` takes escaped data as the data, whatever follows. -/
theorem unescape_escape_append (d r : List Byte) : unescape (escape d ++ r) = (unescape r).map (d ++ ·) := by
  induction d with
  | nil => simp
  | cons c d ih =>
    rw [escape_cons, List.append_assoc, unescape_escByte_append, ih, Option.map_map]
    rfl

/-- The invariant of R88. -/
theorem decodeFrame_assemble (p : List Byte) : decodeFrame (assemble p) = some p := by
  have hbody : unescape (escape (combined p)) =
      some (p ++ [lowByte (computeChecksum p), highByte (computeChecksum p)]) := unescape_escape (combined p)
  exact (decodeFrame_of_unescape_eq_some hbody).trans (if_pos (toNat_eq_lowByte_add_highByte _))

theorem assemble_injective : Function.Injective assemble := by
  intro p q h
  rw [← Option.some.injEq, ← decodeFrame_assemble p, h, decodeFrame_assemble q]

/-- Settles O27: the round trip is the decoder's comparison on a frame, where `unescape` gives back the data bytes. -/
theorem frameRoundTrip : Obligations.FrameRoundTrip :=
  ⟨decodeFrame_assemble, fun _ => decodeFrame_of_getLast?_ne, fun _ => decodeFrame_of_unescape_eq_none,
    fun _ _ => decodeFrame_of_unescape_length_lt_two, fun _ _ _ _ => decodeFrame_of_unescape_eq_some,
    fun p => ⟨unescape_escape_append (combined p) [0x7E#8], assemble_dropLast p ▸ unescape_escape (combined p)⟩⟩

/-- Settles O28: the decoder is a left inverse of `assemble`. -/
theorem framesDetermineTheirPayloads : Obligations.FramesDetermineTheirPayloads := fun _ _ h => assemble_injective h

end Sys2Proof.Machine

/-! Transaction-level runs (R96, R100): a run of `DATA`, the division of a stream into invocations, and the frames a
stream emits. -/

namespace Sys2Proof.Machine

theorem txStep_of_decode_data {w : CmdWord} {b : Byte} (h : decode w = .data b) (c : Word16) :
    txStep c w = (crcByte c b, escByte b) := by
  rw [txStep, h, txExec, dataEffect]

theorem txStep_of_decode_endFrame {w : CmdWord} (h : decode w = .endFrame) (c : Word16) :
    txStep c w = endEffect c := by
  rw [txStep, h, txExec]

/-- The open payload grows by the byte of each `DATA`, so a run of `DATA` in front joins it. -/
theorem splitInvocations_dataOps_append (open_ p : List Byte) (is : List Instr) :
    splitInvocations open_ (dataOps p ++ is) = splitInvocations (open_ ++ p) is := by
  induction p generalizing open_ with
  | nil => rw [List.append_nil]; rfl
  | cons b p ih =>
    calc splitInvocations (open_ ++ [b]) (dataOps p ++ is)
        _ = splitInvocations (open_ ++ b :: p) is := by rw [ih, List.append_assoc, List.singleton_append]

theorem splitInvocations_endFrame_cons (open_ : List Byte) (is : List Instr) :
    splitInvocations open_ (.endFrame :: is) =
      (open_ :: (splitInvocations [] is).1, (splitInvocations [] is).2) := rfl

/-- Complete invocations and a tail are divided as they were put together. -/
theorem splitInvocations_invocationOps_append (ps : List (List Byte)) (tail : List Byte) :
    splitInvocations [] (invocationOps ps ++ dataOps tail) = (ps, tail) := by
  induction ps with
  | nil =>
    have htail := splitInvocations_dataOps_append [] tail []
    rwa [List.append_nil] at htail
  | cons p ps ih =>
    rw [invocationOps, frameOps, List.append_assoc, List.append_assoc, splitInvocations_dataOps_append,
      List.nil_append, List.singleton_append, splitInvocations_endFrame_cons, ih]

/-- The parts of a division, put together again, are the open payload and the stream. -/
theorem invocationOps_splitInvocations (open_ : List Byte) (is : List Instr) :
    invocationOps (splitInvocations open_ is).1 ++ dataOps (splitInvocations open_ is).2 = dataOps open_ ++ is := by
  induction is generalizing open_ with
  | nil => rw [List.append_nil]; rfl
  | cons i is ih =>
    cases i with
    | data b =>
      rw [splitInvocations, ih, dataOps, List.map_append, List.append_assoc]
      rfl
    | endFrame =>
      rw [splitInvocations_endFrame_cons, invocationOps, List.append_assoc, ih, frameOps, List.append_assoc]
      rfl

/-- Settles O48: the division put together again is the stream, and a stream put together is divided the same way. -/
theorem commandStreamSplitsUniquely : Obligations.CommandStreamSplitsUniquely := by
  intro is ps tail
  constructor
  · intro hsplit
    have hparts := invocationOps_splitInvocations [] is
    rw [hsplit] at hparts
    exact hparts.symm
  · rintro rfl
    exact splitInvocations_invocationOps_append ps tail

/-- Settles O47, by induction on the bytes from every register. -/
theorem dataRunAccumulates : Obligations.DataRunAccumulates := by
  intro c s
  induction s generalizing c with
  | nil => rfl
  | cons b s ih =>
    have hbyte : txStep c (encode (.data b)) = (crcByte c b, escByte b) := txStep_of_decode_data (decode_encode _) c
    have hrun := ih (crcByte c b)
    calc txRun c (encode (.data b) :: encodeAll (dataOps s))
        _ = (crcRun c (b :: s), escape (b :: s)) := by rw [txRun_cons, hbyte, hrun, crcRun_cons, escape_cons]

/-- The open payload's escaped bytes, followed by what `END` emits at its partial checksum, are its frame
(R94, R100). -/
theorem escape_append_endEffect (p : List Byte) :
    escape p ++ (endEffect (crcRun Config.crcInit p)).2 = buildFrame p := by
  have hchecksum : escape (le16 (computeChecksum p)) =
      escByte (lowByte (computeChecksum p)) ++ escByte (highByte (computeChecksum p)) := by
    rw [le16, escape_cons, escape_cons, escape_nil, List.append_nil]
  rw [buildFrame, assemble, combined, escape_append, hchecksum, List.append_assoc]
  rfl

/-- A stream that runs behind an open payload `p`: the register ends at the partial checksum of the division's tail, and
the bytes, with those of `p` in front, are the frames of the division and its escaped tail. -/
theorem txRun_of_open_payload (p : List Byte) (ws : List CmdWord) :
    (txRun (crcRun Config.crcInit p) ws).1 =
        crcRun Config.crcInit (splitInvocations p (ws.map decode)).2 ∧
      escape p ++ (txRun (crcRun Config.crcInit p) ws).2 =
        buildFrames (splitInvocations p (ws.map decode)).1 ++ escape (splitInvocations p (ws.map decode)).2 := by
  induction ws generalizing p with
  | nil => exact ⟨rfl, List.append_nil _⟩
  | cons w ws ih =>
    rw [List.map_cons, txRun_cons]
    cases hw : decode w with
    | data b =>
      have hcrc : crcByte (crcRun Config.crcInit p) b = crcRun Config.crcInit (p ++ [b]) := (crcRun_append _ p [b]).symm
      have hescape : escape p ++ escByte b = escape (p ++ [b]) := by
        rw [escape_append, escape_cons, escape_nil, List.append_nil]
      rw [txStep_of_decode_data hw, splitInvocations, hcrc, ← List.append_assoc, hescape]
      exact ih (p ++ [b])
    | endFrame =>
      obtain ⟨hcrc, hbytes⟩ := ih []
      rw [txStep_of_decode_endFrame hw, splitInvocations_endFrame_cons, ← List.append_assoc, escape_append_endEffect]
      exact ⟨hcrc, (congrArg (buildFrame p ++ ·) hbytes).trans (List.append_assoc _ _ _).symm⟩

/-- Settles O50: `txRun_of_open_payload` with no payload open yet. -/
theorem anyStreamEmitsItsFrames : Obligations.AnyStreamEmitsItsFrames := by
  intro ws split
  obtain ⟨hcrc, hbytes⟩ := txRun_of_open_payload [] ws
  exact Prod.ext hcrc hbytes

theorem map_decode_encodeAll (is : List Instr) : (encodeAll is).map decode = is := by
  rw [encodeAll, List.map_map]
  exact List.map_id'' decode_encode is

/-- Complete invocations are divided into themselves and no tail. -/
theorem splitInvocations_invocationOps (ps : List (List Byte)) : splitInvocations [] (invocationOps ps) = (ps, []) := by
  have hsplit := splitInvocations_invocationOps_append ps []
  rwa [dataOps, List.map_nil, List.append_nil] at hsplit

/-- Complete invocations emit their frames one after another and end as they began (R100). -/
theorem txRun_invocationOps (ps : List (List Byte)) :
    txRun 0xFFFF#16 (encodeAll (invocationOps ps)) = (0xFFFF#16, buildFrames ps) := by
  rw [anyStreamEmitsItsFrames, map_decode_encodeAll, splitInvocations_invocationOps, crcRun_nil, escape_nil,
    List.append_nil]

/-- Settles O49: one payload is a list of one invocation. -/
theorem frameCommandsBuildTheFrame : Obligations.FrameCommandsBuildTheFrame := by
  refine ⟨fun p => ?_, txRun_invocationOps⟩
  have hrun := txRun_invocationOps [p]
  rwa [invocationOps, invocationOps, List.append_nil, buildFrames, buildFrames, List.append_nil] at hrun

/-- Settles O51: `runFor_refines_txRun`; what is delivered is the front part of what is delivered or pending. -/
theorem beatLevelRefinesTransactionLevel : Obligations.BeatLevelRefinesTransactionLevel := by
  intro k s h
  obtain ⟨t, hrun, hcrc, hbytes⟩ := runFor_refines_txRun h
  refine ⟨t, hrun, hcrc, hbytes, ⟨t.pend, hbytes⟩, fun hpend => ?_⟩
  rwa [hpend, List.append_nil] at hbytes

end Sys2Proof.Machine

/-! Pending bytes and the consumer (R103, R104, U9): runs with a consumer ready often enough, and with one never
ready. -/

namespace Sys2Proof.Machine

/-- What the environment keeps at every edge of a run, and an undriven edge keeps too, holds of the first edge's pins
and along the run after it. -/
theorem forall_mem_take_inputs_succ {P : PortInput → Prop} (hidle : P PortInput.idle) {k : Nat} {s : State}
    (h : ∀ p ∈ s.inputs.take (k + 1), P p) : P s.pins ∧ ∀ p ∈ s.edge.inputs.take k, P p := by
  rw [edge_inputs, State.pins]
  cases hinputs : s.inputs with
  | nil => exact ⟨hidle, by simp⟩
  | cons p rest =>
    rw [hinputs, List.take_succ_cons] at h
    exact List.forall_mem_cons.1 h

/-- The ready edges of a run are the first one, if it is ready, and those after it. -/
theorem readyEdges_succ (k : Nat) (s : State) :
    readyEdges (k + 1) s = readyEdges k s.edge + if s.pins.outReady then 1 else 0 := by
  unfold readyEdges State.pins
  rw [edge_inputs]
  cases s.inputs with
  | nil => simp [PortInput.idle]
  | cons p rest => rw [List.take_succ_cons, List.countP_cons]; rfl

/-- While bytes are pending an edge without reset moves them from `pend` to `out`: one if the consumer is ready, none if
it is not (R103). -/
theorem edge_of_pending {s : State} (hrst : s.pins.rst = false) (hpend : s.pend ≠ []) :
    s.edge.out ++ s.edge.pend = s.out ++ s.pend ∧
      s.edge.pend.length + (if s.pins.outReady then 1 else 0) = s.pend.length := by
  rcases edge_cases s with ⟨hreset, -, -⟩ | ⟨-, hempty, -, -, -⟩ | ⟨-, -, hready, -, hedge⟩ | ⟨-, -, hstalled, -, hedge⟩
  · simp [hrst] at hreset
  · exact absurd hempty hpend
  · have hlen : s.pend.length - 1 + 1 = s.pend.length := Nat.sub_add_cancel (List.length_pos_iff.2 hpend)
    rw [hedge, State.emit_out_append_pend, State.emit_pend, State.nextEdge_pend, List.length_tail, if_pos hready]
    exact ⟨rfl, hlen⟩
  · rw [hedge, hstalled hpend]
    exact ⟨rfl, rfl⟩

/-- Settles O54, by induction on the edges: with nothing pending the history only grows (O57); otherwise each ready edge
takes one byte off the queue (`edge_of_pending`). -/
theorem readyConsumerGetsEveryPendingByte : Obligations.ReadyConsumerGetsEveryPendingByte := by
  intro k
  induction k with
  | zero =>
    intro s _ hready
    have hpend : s.pend = [] := List.length_eq_zero_iff.1 (Nat.le_zero.1 hready)
    exact ⟨s, rfl, by rw [hpend, List.append_nil]⟩
  | succ k ih =>
    intro s hnoReset hready
    obtain ⟨hrst, hrest⟩ := noReset_succ hnoReset
    by_cases hpend : s.pend = []
    · obtain ⟨t, new, hrun, hout, -⟩ := outputHistoryIsNeverRead (k + 1) s []
      exact ⟨t, hrun, new, by rw [hpend, List.append_nil, hout]⟩
    · obtain ⟨hbytes, hlen⟩ := edge_of_pending hrst hpend
      rw [readyEdges_succ, ← hlen] at hready
      rw [runFor_succ, ← hbytes]
      exact ih s.edge hrest (Nat.le_of_add_le_add_right hready)

/-- A stalled edge: bytes are pending and the consumer is not ready, so nothing is transferred (R103). -/
theorem edge_of_stalled {s : State} (hrst : s.pins.rst = false) (hpend : s.pend ≠ [])
    (hready : s.pins.outReady = false) : s.edgeEvent = .hold ∧ s.edge = s.nextEdge := by
  rcases edge_cases s with ⟨hreset, -, -⟩ | ⟨-, hempty, -, -, -⟩ | ⟨-, -, hoff, -, -⟩ | ⟨-, -, -, hevent, hedge⟩
  · simp [hrst] at hreset
  · exact absurd hempty hpend
  · simp [hready] at hoff
  · exact ⟨hevent, hedge⟩

/-- Settles O56, by induction on the edges; each is a stalled one. -/
theorem neverReadyConsumerStallsTheBlock : Obligations.NeverReadyConsumerStallsTheBlock := by
  intro k
  induction k with
  | zero => exact fun s _ _ _ => ⟨rfl, rfl⟩
  | succ k ih =>
    intro s hnoReset hpend hstalled
    obtain ⟨hrst, hrest⟩ := noReset_succ hnoReset
    obtain ⟨hready, hlater⟩ := forall_mem_take_inputs_succ (P := fun p => p.outReady = false) rfl hstalled
    obtain ⟨hevent, hedge⟩ := edge_of_stalled hrst hpend hready
    rw [hedge] at hrest hlater
    obtain ⟨hrun, hwords⟩ := ih s.nextEdge hrest hpend hlater
    rw [runFor_succ, acceptedWords_succ, hevent, hedge, hrun, hwords, State.nextEdge_inputs, List.drop_tail]
    exact ⟨rfl, rfl⟩

end Sys2Proof.Machine

/-! The two operations and their edges (R93 to R95, R102, R103). -/

namespace Sys2Proof.Machine

/-- An operation met with nothing pending completes (R102). -/
theorem exec_of_empty (i : Instr) {s : State} (h : s.pend = []) :
    exec i s = .next { s with crc := (txExec s.crc i).1, pend := (txExec s.crc i).2 } := by
  rw [exec_eq, State.accept_of_empty _ h]

/-- Settles O29: completion is `exec_of_empty`, and a widened byte decodes to its `DATA`. -/
theorem dataTakesOnePayloadByte : Obligations.DataTakesOnePayloadByte :=
  ⟨fun b _ h => exec_of_empty (.data b) h, fun c b => txStep_of_decode_data (decode_encode (.data b)) c, by decide⟩

/-- Settles O30: completion is `exec_of_empty`, and every word with its `end` bit set is an `END`. -/
theorem endClosesTheFrame : Obligations.EndClosesTheFrame :=
  ⟨fun _ h => exec_of_empty .endFrame h, fun c _ h => txStep_of_endBit_true c h, by decide, by decide, by decide,
    by decide⟩

theorem escByte_eq_ite (b : Byte) :
    escByte b = if b = 0x7D#8 ∨ b = 0x7E#8 then [0x7D#8, b ^^^ 0x20#8] else [b] := by
  simp only [escByte, isReserved_iff, Config.esc, Config.escXor]

/-- No operation emits nothing (R95). -/
theorem one_le_txExec_length (c : Word16) (i : Instr) : 1 ≤ (txExec c i).2.length := by
  cases i with
  | data b =>
    rw [txExec, dataEffect, escByte_length]
    exact Nat.le_add_right _ _
  | endFrame =>
    rw [txExec, endEffect, List.length_append]
    exact Nat.le_add_left _ _

/-- Settles O31: the rows are the two shapes of one byte's escape, for each byte the operation sends. -/
theorem bytesEmittedPerOperation : Obligations.BytesEmittedPerOperation := by
  refine ⟨fun _ b => escByte_eq_ite b, ?_, fun c i => ⟨one_le_txExec_length c i, txExec_length_le c i⟩⟩
  intro c lo hi
  have hbytes : (txExec c .endFrame).2 = escByte lo ++ escByte hi ++ [0x7E#8] := rfl
  rw [hbytes, escByte_eq_ite, escByte_eq_ite]
  split_ifs <;> rfl

/-- Settles O32. -/
theorem operationWaitsWhileBytesArePending : Obligations.OperationWaitsWhileBytesArePending := by
  intro i s h
  rw [exec_eq, State.accept_of_pending _ h]

/-- Settles O35: the edge accepts the word on its pins, and `step` runs what that word decodes to. -/
theorem stepRunsTheDecodedWord : Obligations.StepRunsTheDecodedWord := by
  intro s hrst hvalid hpend
  have hevent : s.edgeEvent = .accept s.pins.cmd :=
    (edgeEvent_eq_accept_iff s _).2 ⟨hvalid, (cmdReady_iff s).2 ⟨hrst, hpend⟩, rfl⟩
  rw [step, hevent]
  rfl

theorem cmdReady_of_pending {s : State} (h : s.pend ≠ []) : s.cmdReady = false := by
  rw [← Bool.not_eq_true, cmdReady_iff]
  exact fun hready => h hready.2

/-- Settles O37: the accepting edge is `exec` of the decoded word (O35), which completes; acceptance needs
`cmd_ready`. -/
theorem acceptStep : Obligations.AcceptStep := by
  refine ⟨fun s hrst hvalid hpend => ?_, fun s hpend => ⟨cmdReady_of_pending hpend, fun w hevent => ?_⟩⟩
  · rw [stepRunsTheDecodedWord s hrst hvalid hpend]
    exact exec_of_empty (decode s.pins.cmd) hpend
  · obtain ⟨-, hready, -⟩ := (edgeEvent_eq_accept_iff s w).1 hevent
    simp [cmdReady_of_pending hpend] at hready

/-- While bytes are pending and no reset is driven, `out_data` is the head of the queue (R48). -/
theorem outData_of_pending {s : State} (hrst : s.pins.rst = false) (hpend : s.pend ≠ []) :
    s.outData = s.pend.head? :=
  outData_of_outValid ((outValid_iff s).2 ⟨hrst, hpend⟩)

/-- Settles O38: `EMIT` and the stalled edge, each decided by its pins; `out_data` reads the queue, which a stalled edge
keeps. -/
theorem emitStep : Obligations.EmitStep := by
  refine ⟨fun s b rest hrst hready hcons => ?_, fun s hrst hready hpend => ⟨?_, fun hnext => ?_⟩⟩
  · have hpend : s.pend ≠ [] := by simp [hcons]
    have hevent : s.edgeEvent = .emit := (edgeEvent_eq_emit_iff s).2 ⟨hready, (outValid_iff s).2 ⟨hrst, hpend⟩⟩
    have hhead : s.outData = some b := by rw [outData_of_pending hrst hpend, hcons, List.head?_cons]
    refine ⟨hhead, ?_⟩
    rw [step, hevent]
    exact congrArg Host.Outcome.next (State.emit_of_cons (s := s.nextEdge) hcons)
  · rw [step_eq, (edge_of_stalled hrst hpend hready).2]
    rfl
  · rw [outData_of_pending hrst hpend]
    exact outData_of_pending (s := s.nextEdge) hnext hpend

end Sys2Proof.Machine

/-! The one outcome of an operation and of an edge, and the edge at which nothing happens (60_exceptions.md: R105,
R118). -/

namespace Sys2Proof.Machine

/-- Settles O33: `exec_eq` and `step_eq` name the next state, and `Fault` has no constructor. -/
theorem nothingFaultsOrRefuses : Obligations.NothingFaultsOrRefuses :=
  ⟨fun i s => ⟨_, exec_eq i s⟩, fun s => ⟨_, step_eq s⟩, fun fault => nomatch fault⟩

/-- With nothing offered and nothing pending an edge only moves on to the next pins: reset is not driven, there is no word
to accept and no byte to deliver (R118). -/
theorem edge_of_idle {s : State} (hrst : s.pins.rst = false) (hvalid : s.pins.cmdValid = false) (hpend : s.pend = []) :
    s.edge = s.nextEdge := by
  rcases edge_cases s with ⟨hreset, -, -⟩ | ⟨-, -, hoffer, -, -⟩ | ⟨-, hbytes, -, -, -⟩ | ⟨-, -, -, -, hedge⟩
  · simp [hrst] at hreset
  · simp [hvalid] at hoffer
  · exact absurd hpend hbytes
  · exact hedge

/-- Settles O39. -/
theorem idleEdgeHoldsTheState : Obligations.IdleEdgeHoldsTheState := by
  intro s hrst hvalid hpend
  rw [step_eq, edge_of_idle hrst hvalid hpend]
  rfl

end Sys2Proof.Machine

/-! A finished run from a frame boundary (R134). -/

namespace Sys2Proof.Machine

/-- A stream that ends in `END` leaves no payload open. -/
theorem splitInvocations_append_endFrame (open_ : List Byte) (is : List Instr) :
    (splitInvocations open_ (is ++ [.endFrame])).2 = [] := by
  induction is generalizing open_ with
  | nil => rfl
  | cons i is ih =>
    cases i with
    | data b => exact ih (open_ ++ [b])
    | endFrame => exact ih []

/-- The accepted words of a finished run leave no payload open: there is none, or the last is `END`. -/
theorem splitInvocations_of_finishedRun {ws : List CmdWord} {t : State} (h : finishedRun ws t) :
    (splitInvocations [] (ws.map decode)).2 = [] := by
  obtain ⟨rfl | hlast, -⟩ := h
  · rfl
  · rw [← List.getLast?_map] at hlast
    obtain ⟨is, his⟩ := List.getLast?_eq_some_iff.1 hlast
    rw [his, splitInvocations_append_endFrame]

/-- Settles O52: the run delivers or holds what the transaction level emits (`runFor_refines_txRun`), which is the
frames and the escaped open payload (O50); in a finished run no payload is open and nothing is pending. -/
theorem finishedRunDeliversTheFrames : Obligations.FinishedRunDeliversTheFrames := by
  intro k s ⟨hcrc, hpend⟩ hnoReset split
  obtain ⟨t, hrun, htcrc, hbytes⟩ := runFor_refines_txRun hnoReset
  have hstream : txRun s.crc (acceptedWords k s) =
      (crcRun 0xFFFF#16 split.2, buildFrames split.1 ++ escape split.2) := by
    rw [hcrc]
    exact anyStreamEmitsItsFrames (acceptedWords k s)
  rw [hstream] at htcrc hbytes
  rw [hpend, List.append_nil, ← List.append_assoc] at hbytes
  refine ⟨t, hrun, htcrc, hbytes, fun hfinished => ?_⟩
  have htail : split.2 = [] := splitInvocations_of_finishedRun hfinished
  obtain ⟨-, htpend⟩ := hfinished
  rw [htail] at htcrc hbytes
  rw [htpend, escape_nil, List.append_nil, List.append_nil] at hbytes
  exact ⟨hbytes, htcrc, htpend⟩

end Sys2Proof.Machine

/-! Counting steps (R133): one byte of output per `EMIT`, at most one transfer an edge, and the run that serves a stream
of words without a pause. -/

namespace Sys2Proof.Machine

@[simp] theorem emitCount_zero (s : State) : emitCount 0 s = 0 := rfl

theorem emitCount_succ (k : Nat) (s : State) :
    emitCount (k + 1) s = emitCount k s.edge + if s.edgeEvent == .emit then 1 else 0 := by
  rw [emitCount, edgeEvents_succ, List.count_cons, emitCount]

/-- An edge delivers one byte where it is an `EMIT`, which needs a byte pending, and none elsewhere. -/
theorem delivered_length (s : State) : s.delivered.length = if s.edgeEvent == .emit then 1 else 0 := by
  unfold State.delivered
  cases hevent : s.edgeEvent with
  | reset => rfl
  | accept w => rfl
  | hold => rfl
  | emit =>
    obtain ⟨-, hvalid⟩ := (edgeEvent_eq_emit_iff s).1 hevent
    obtain ⟨-, hpend⟩ := (outValid_iff s).1 hvalid
    rw [List.length_take, Nat.min_eq_left (List.length_pos_iff.2 hpend)]
    rfl

/-- Every run delivers one byte per `EMIT` step, resets or not. -/
theorem runFor_out_length {k : Nat} {s t : State} (h : runFor k s = .next t) :
    t.out.length = s.out.length + emitCount k s := by
  induction k generalizing s with
  | zero => cases h; rfl
  | succ k ih =>
    rw [runFor_succ] at h
    rw [ih h, edge_out, List.length_append, delivered_length, emitCount_succ]
    omega

/-- One edge is at most one of `ACCEPT` and `EMIT` (R110). -/
theorem EdgeEvent.transfers_le_one (e : EdgeEvent) :
    e.word?.toList.length + (if e == .emit then 1 else 0) ≤ 1 := by
  cases e with
  | reset => exact Nat.zero_le 1
  | accept w => exact Nat.le_refl 1
  | emit => exact Nat.le_refl 1
  | hold => exact Nat.zero_le 1

theorem acceptedWords_length_add_emitCount_le (k : Nat) (s : State) :
    (acceptedWords k s).length + emitCount k s ≤ k := by
  induction k generalizing s with
  | zero => exact Nat.le_refl 0
  | succ k ih =>
    have hfirst := s.edgeEvent.transfers_le_one
    have hrest := ih s.edge
    rw [acceptedWords_succ, emitCount_succ, List.length_append]
    omega

/-- A word offered while nothing is pending and no reset is driven is accepted (R102). -/
theorem edgeEvent_of_offered {s : State} (hrst : s.pins.rst = false) (hvalid : s.pins.cmdValid = true)
    (hpend : s.pend = []) : s.edgeEvent = .accept s.pins.cmd :=
  (edgeEvent_eq_accept_iff s _).2 ⟨hvalid, (cmdReady_iff s).2 ⟨hrst, hpend⟩, rfl⟩

/-- An edge that offers `w` while nothing is pending makes the effect of `w` the register and the queue. -/
theorem edge_of_offer {s : State} {w : CmdWord} {rest : List PortInput} (hpend : s.pend = [])
    (hinputs : s.inputs = PortInput.offer w :: rest) :
    s.edgeEvent = .accept w ∧
      s.edge = { s with crc := (txStep s.crc w).1, pend := (txStep s.crc w).2, inputs := rest } := by
  have hpins : s.pins = PortInput.offer w := by rw [State.pins, hinputs]; rfl
  have hrst : s.pins.rst = false := by rw [hpins]; rfl
  have hvalid : s.pins.cmdValid = true := by rw [hpins]; rfl
  have hevent := edgeEvent_of_offered hrst hvalid hpend
  have hstep := acceptStep.1 s hrst hvalid hpend
  rw [hpins] at hevent
  rw [step_eq, hpins, hinputs] at hstep
  exact ⟨hevent, Host.Outcome.next.inj hstep⟩

/-- An edge at which the consumer takes a byte delivers the head of the queue. -/
theorem edge_of_takeByte {s : State} {b : Byte} {bs : List Byte} {rest : List PortInput} (hpend : s.pend = b :: bs)
    (hinputs : s.inputs = PortInput.takeByte :: rest) :
    s.edgeEvent = .emit ∧ s.edge = { s with out := s.out ++ [b], pend := bs, inputs := rest } := by
  have hpins : s.pins = PortInput.takeByte := by rw [State.pins, hinputs]; rfl
  have hrst : s.pins.rst = false := by rw [hpins]; rfl
  have hready : s.pins.outReady = true := by rw [hpins]; rfl
  obtain ⟨-, hstep⟩ := emitStep.1 s b bs hrst hready hpend
  rw [step_eq, hinputs] at hstep
  refine ⟨(edgeEvent_eq_emit_iff s).2 ⟨hready, (outValid_iff s).2 ⟨hrst, ?_⟩⟩, Host.Outcome.next.inj hstep⟩
  rw [hpend]
  exact List.cons_ne_nil b bs

/-- A consumer that takes a byte at as many edges as bytes are pending takes them all, and no word is accepted. -/
theorem runFor_takeBytes (bs : List Byte) {s : State} {rest : List PortInput} (hpend : s.pend = bs)
    (hinputs : s.inputs = List.replicate bs.length PortInput.takeByte ++ rest) :
    runFor bs.length s = .next { s with out := s.out ++ bs, pend := [], inputs := rest } ∧
      acceptedWords bs.length s = [] := by
  induction bs generalizing s with
  | nil =>
    obtain ⟨crc, pend, out, inputs⟩ := s
    cases hpend
    cases hinputs
    simp
  | cons b bs ih =>
    obtain ⟨hevent, hedge⟩ := edge_of_takeByte hpend hinputs
    obtain ⟨hrun, hwords⟩ := ih (s := s.edge) (by rw [hedge]) (by rw [hedge]; rfl)
    rw [List.length_cons, runFor_succ, acceptedWords_succ, hevent, hrun, hwords, hedge, List.append_assoc]
    exact ⟨rfl, rfl⟩

/-- One word served without a pause: it is accepted, then each byte it emits is taken. -/
theorem runFor_serve_word {s : State} {w : CmdWord} {rest : List PortInput} (hpend : s.pend = [])
    (hinputs : s.inputs =
      PortInput.offer w :: (List.replicate (txStep s.crc w).2.length PortInput.takeByte ++ rest)) :
    runFor ((txStep s.crc w).2.length + 1) s =
        .next { s with crc := (txStep s.crc w).1, out := s.out ++ (txStep s.crc w).2, inputs := rest } ∧
      acceptedWords ((txStep s.crc w).2.length + 1) s = [w] := by
  obtain ⟨hevent, hedge⟩ := edge_of_offer hpend hinputs
  obtain ⟨hrun, hwords⟩ := runFor_takeBytes (txStep s.crc w).2 (s := s.edge) (by rw [hedge]) (by rw [hedge])
  rw [runFor_succ, acceptedWords_succ, hevent, hrun, hwords, hedge, hpend]
  exact ⟨rfl, rfl⟩

/-- A stream served without a pause takes one edge per word and one per byte it emits, accepts its words in order and
delivers what the transaction level emits. -/
theorem runFor_serve (ws : List CmdWord) {s : State} {rest : List PortInput} (hpend : s.pend = [])
    (hinputs : s.inputs = serve s.crc ws ++ rest) :
    runFor (ws.length + (txRun s.crc ws).2.length) s =
        .next { s with crc := (txRun s.crc ws).1, out := s.out ++ (txRun s.crc ws).2, inputs := rest } ∧
      acceptedWords (ws.length + (txRun s.crc ws).2.length) s = ws := by
  induction ws generalizing s with
  | nil =>
    obtain ⟨crc, pend, out, inputs⟩ := s
    cases hinputs
    simp
  | cons w ws ih =>
    rw [serve, List.cons_append, List.append_assoc] at hinputs
    obtain ⟨hword, haccepted⟩ := runFor_serve_word hpend hinputs
    obtain ⟨hrun, hwords⟩ := ih (s := { s with
      crc := (txStep s.crc w).1, out := s.out ++ (txStep s.crc w).2, inputs := serve (txStep s.crc w).1 ws ++ rest })
      hpend rfl
    have hedges : (w :: ws).length + (txRun s.crc (w :: ws)).2.length =
        ((txStep s.crc w).2.length + 1) + (ws.length + (txRun (txStep s.crc w).1 ws).2.length) := by
      rw [txRun_cons, List.length_cons, List.length_append]
      omega
    rw [hedges, runFor_add _ _ hword, acceptedWords_add _ _ hword, hrun, hwords, haccepted, txRun_cons,
      List.append_assoc]
    exact ⟨rfl, rfl⟩

theorem frameWords_length (p : List Byte) : (frameWords p).length = p.length + 1 := by
  simp [frameWords, encodeAll, frameOps, dataOps]

/-- A payload's words served from a frame boundary deliver its frame and lead back to the boundary. -/
theorem runFor_serve_frameWords (p : List Byte) {s : State} {rest : List PortInput} (hs : s.frameBoundary)
    (hinputs : s.inputs = serve 0xFFFF#16 (frameWords p) ++ rest) :
    runFor (p.length + 1 + (buildFrame p).length) s = .next { s with out := s.out ++ buildFrame p, inputs := rest } ∧
      acceptedWords (p.length + 1 + (buildFrame p).length) s = frameWords p := by
  obtain ⟨hcrc, hpend⟩ := hs
  have hframe : txRun s.crc (frameWords p) = (s.crc, buildFrame p) := by
    rw [hcrc]
    exact frameCommandsBuildTheFrame.1 p
  have hserve : s.inputs = serve s.crc (frameWords p) ++ rest := by rwa [hcrc]
  have hserved := runFor_serve (frameWords p) hpend hserve
  rwa [hframe, frameWords_length] at hserved

theorem buildFrame_length_bounds (p : List Byte) :
    p.length + 3 ≤ (buildFrame p).length ∧ (buildFrame p).length ≤ 2 * p.length + 5 := by
  refine ⟨?_, assemble_length_le p⟩
  rw [buildFrame, assemble_length]
  exact Nat.le_add_right _ _

/-- Settles O53: the served run by `runFor_serve`, its `EMIT` steps by the bytes it delivered, and the counting laws. -/
theorem frameTakesTheCountedSteps : Obligations.FrameTakesTheCountedSteps := by
  refine ⟨fun p s rest hs hinputs => ?_, buildFrame_length_bounds, fun _ _ _ => runFor_out_length,
    acceptedWords_length_add_emitCount_le⟩
  obtain ⟨hrun, hwords⟩ := runFor_serve_frameWords p hs hinputs
  have hcount := runFor_out_length hrun
  rw [List.length_append] at hcount
  exact ⟨hrun, hwords, by rw [hwords, frameWords_length], (Nat.add_left_cancel hcount).symm⟩

end Sys2Proof.Machine

/-! Reset (R119, R121), and the first operation after it (R122). -/

namespace Sys2Proof.Machine

/-- An edge of reset leaves register and queue at their reset values and `out` alone (R119, R121). -/
theorem edge_of_reset {s : State} (hrst : s.pins.rst = true) :
    s.edge = { s with crc := 0xFFFF#16, pend := [], inputs := s.inputs.tail } := by
  rw [edge_eq_ite, if_pos hrst]
  rfl

/-- Where reset is driven at `k + 1` listed edges, it is driven at the coming one and at the `k` after it. -/
theorem reset_listed {k : Nat} {s : State} (hlisted : 0 < s.inputs.length)
    (hreset : ∀ p ∈ s.inputs.take (k + 1), p.rst = true) :
    s.pins.rst = true ∧ ∀ p ∈ s.edge.inputs.take k, p.rst = true := by
  rw [edge_inputs, State.pins]
  cases hinputs : s.inputs with
  | nil => simp [hinputs] at hlisted
  | cons p rest =>
    rw [hinputs, List.take_succ_cons] at hreset
    exact List.forall_mem_cons.1 hreset

/-- `k + 1` listed edges of reset do what one does. -/
theorem runFor_of_reset (k : Nat) {s : State} (hlength : k + 1 ≤ s.inputs.length)
    (hreset : ∀ p ∈ s.inputs.take (k + 1), p.rst = true) :
    runFor (k + 1) s = .next { s with crc := 0xFFFF#16, pend := [], inputs := s.inputs.drop (k + 1) } := by
  induction k generalizing s with
  | zero =>
    obtain ⟨hrst, -⟩ := reset_listed hlength hreset
    rw [runFor_succ, runFor_zero, edge_of_reset hrst, List.drop_one]
  | succ k ih =>
    obtain ⟨hrst, hrest⟩ := reset_listed (Nat.zero_lt_of_lt hlength) hreset
    have hlater : k + 1 ≤ s.edge.inputs.length := by
      rw [edge_inputs, List.length_tail]
      omega
    rw [runFor_succ, ih hlater hrest, edge_of_reset hrst, List.drop_tail]

/-- Settles O40. -/
theorem resetStep : Obligations.ResetStep := by
  refine ⟨fun s hrst => ⟨?_, ?_, ?_⟩, fun k s => runFor_of_reset k⟩
  · rw [State.cmdReady, hrst]; rfl
  · rw [State.outValid, hrst]; rfl
  · rw [step_eq, edge_of_reset hrst]

/-- Settles O42: without a word the edge is idle (O39); a word offered is accepted (O37), and its `end` bit says which
of the two effects it has. -/
theorem firstOperationAfterReset : Obligations.FirstOperationAfterReset := by
  refine ⟨fun s => ⟨rfl, rfl⟩, fun s hcrc hpend hrst => ?_⟩
  cases hvalid : s.pins.cmdValid with
  | false => exact idleEdgeHoldsTheState s hrst hvalid hpend
  | true =>
    rw [acceptStep.1 s hrst hvalid hpend, hcrc, if_pos rfl]
    cases hbit : s.pins.cmd.getLsbD 8 with
    | false => rw [txStep_of_decode_data (decode_of_endBit_false hbit), if_pos rfl]; rfl
    | true =>
      have hend : endEffect 0xFFFF#16 = (0xFFFF#16, [0x00#8, 0x00#8, 0x7E#8]) := by decide
      rw [txStep_of_endBit_true _ hbit, hend]
      rfl

end Sys2Proof.Machine

/-! A word the caller holds (R129, R102). -/

namespace Sys2Proof.Machine

/-- The pins after an edge are the next ones listed, whatever the edge did. -/
theorem edge_pins (s : State) : s.edge.pins = s.nextEdge.pins := by
  rw [State.pins, edge_inputs]
  rfl

/-- While bytes are pending a caller who keeps its duty offers the same word again at the next edge (R129). -/
theorem offer_kept {s : State} (hkeeps : s.keepsOffer = true) (hvalid : s.pins.cmdValid = true)
    (hpend : s.pend ≠ []) : s.edge.pins.cmdValid = true ∧ s.edge.pins.cmd = s.pins.cmd := by
  rw [edge_pins]
  simpa [State.keepsOffer, hvalid, cmdReady_of_pending hpend] using hkeeps

/-- While bytes are pending an edge accepts no word (R102). -/
theorem word?_of_pending {s : State} (hpend : s.pend ≠ []) : s.edgeEvent.word? = none := by
  cases hevent : s.edgeEvent with
  | accept w => exact absurd hevent ((acceptStep.2 s hpend).2 w)
  | reset => rfl
  | emit => rfl
  | hold => rfl

/-- A word offered without reset while nothing is pending is the first one accepted. -/
theorem acceptedWords_head?_of_empty (k : Nat) {s : State} (hrst : s.pins.rst = false)
    (hvalid : s.pins.cmdValid = true) (hpend : s.pend = []) :
    (acceptedWords (k + 1) s).head? = some s.pins.cmd := by
  rw [acceptedWords_succ, edgeEvent_of_offered hrst hvalid hpend]
  rfl

/-- Settles O55, by induction on the edges: with nothing pending the word is accepted; otherwise the edge accepts none,
the caller offers the word again, and each ready edge has taken one byte off the queue (`edge_of_pending`). -/
theorem heldWordIsAccepted : Obligations.HeldWordIsAccepted := by
  intro k
  induction k with
  | zero =>
    intro s hnoReset hvalid _ hready
    obtain ⟨hrst, -⟩ := noReset_succ hnoReset
    have hpend : s.pend = [] := List.length_eq_zero_iff.1 (Nat.le_zero.1 hready)
    exact acceptedWords_head?_of_empty 0 hrst hvalid hpend
  | succ k ih =>
    intro s hnoReset hvalid hholds hready
    obtain ⟨hrst, hrest⟩ := noReset_succ hnoReset
    by_cases hpend : s.pend = []
    · exact acceptedWords_head?_of_empty (k + 1) hrst hvalid hpend
    · rw [callerHolds_succ, Bool.and_eq_true] at hholds
      obtain ⟨hkeeps, hholdsLater⟩ := hholds
      obtain ⟨hvalidLater, hsame⟩ := offer_kept hkeeps hvalid hpend
      obtain ⟨-, hlen⟩ := edge_of_pending hrst hpend
      rw [readyEdges_succ, ← hlen] at hready
      rw [acceptedWords_succ, word?_of_pending hpend, ← hsame]
      exact ih s.edge hrest hvalidLater hholdsLater (Nat.le_of_add_le_add_right hready)

end Sys2Proof.Machine
